-- ==== Sys2Proof/Word.lean ====
section
/-! DEFINITION. The two bit-vector types of the block: a 32-bit bus word (10_state.md R40, every register is 32 bits wide)
and the byte its little-endian layout is made of (20_memory.md R64). -/

namespace Sys2Proof

/-- A bus word: the contents of one register, or the command word written to CMD. -/
abbrev Word := BitVec 32

/-- One byte of a bus word. -/
abbrev Byte := BitVec 8

end Sys2Proof
end

