-- ==== Sys2Proof/Config.lean ====
section
/-! DEFINITION. What an implementation fixes (00_scope.md R5, R6), the events of the block's three agents (R7), and the one
free value of the model: the schedule, which the spec leaves open. -/

namespace Sys2Proof.Config

/-- One entry of the parameter `UNITS` (00_scope.md R5): identity, window base, build-time interrupt priority. -/
structure UnitInfo where
  id   : Byte
  base : Nat
  prio : Byte
  deriving DecidableEq, Repr

/-- The parameters shared by every unit (00_scope.md R5). They are data of the machine: no step writes them, and the
model's statements hold for every value of them (log 1). -/
structure Params where
  channels     : Nat
  counterWidth : Nat
  pscWidth     : Nat
  inputClockHz : Nat
  prioMax      : Nat
  deriving DecidableEq, Repr

/-- `MAX_COUNT`, the largest period (00_scope.md R6). -/
def Params.maxCount (p : Params) : Nat := 2 ^ p.counterWidth

/-- `PSC_MAX`, the largest prescaler (00_scope.md R6). -/
def Params.pscMax (p : Params) : Nat := 2 ^ p.pscWidth - 1

/-- `CCR_WIDTH`, the width of the compare registers and of PERIOD (00_scope.md R6). -/
def Params.ccrWidth (p : Params) : Nat := p.counterWidth + 1

/-- The size of a unit's register window, 0x200 bytes (10_state.md R40). -/
def windowBytes : Nat := 0x200

/-- The ranges of the parameter table of 00_scope.md R5. -/
structure Params.Valid (p : Params) : Prop where
  channels     : 1 ≤ p.channels ∧ p.channels ≤ 16
  counterWidth : 1 ≤ p.counterWidth ∧ p.counterWidth ≤ 31
  pscWidth     : 1 ≤ p.pscWidth ∧ p.pscWidth ≤ 32
  inputClockHz : 1 ≤ p.inputClockHz ∧ p.inputClockHz < 2 ^ 32
  prioMax      : p.prioMax ≤ 255

/-- Two windows share no address. -/
abbrev UnitInfo.Disjoint (a b : UnitInfo) : Prop :=
  a.base + windowBytes ≤ b.base ∨ b.base + windowBytes ≤ a.base

/-- The constraints of 00_scope.md R5 on `UNITS`: distinct ids, 0x200-aligned bases whose windows do not overlap, and
every `IRQ_PRIO` in `0..PRIO_MAX`. -/
structure UnitsValid (p : Params) (us : List UnitInfo) : Prop where
  aligned  : ∀ u ∈ us, u.base % windowBytes = 0
  prio     : ∀ u ∈ us, u.prio.toNat ≤ p.prioMax
  ids      : us.Pairwise fun a b => a.id ≠ b.id
  disjoint : us.Pairwise UnitInfo.Disjoint

/-- The parameter values of 95_test_vectors.md section 0. DESIGN CHOICE (log 2), unsafe: "the vectors' choice, not
defaults of the hardware"; only `State.reset` and the tests use them. -/
def sampleParams : Params :=
  { channels := 4, counterWidth := 16, pscWidth := 16, inputClockHz := 72000000, prioMax := 15 }

/-- The one unit of 95_test_vectors.md section 0. DESIGN CHOICE (log 2), unsafe as `sampleParams` is. -/
def sampleUnits : List UnitInfo := [{ id := 1, base := 0x40000000, prio := 7 }]

/-- A host bus access, `MemRead(addr, n)` or `MemWrite(addr, n, v)` (20_memory.md R61). -/
inductive BusAccess where
  | read  (addr n : Nat)
  | write (addr n : Nat) (v : Word)
  deriving DecidableEq, Repr, Inhabited

/-- One step of one agent (00_scope.md R7): a Host access, a CLK step of the Counter of the unit at a position of `UNITS`,
or a DISPATCH step of its Dispatcher. -/
inductive Event where
  | host     (access : BusAccess)
  | clk      (unit : Nat)
  | dispatch (unit : Nat)
  deriving DecidableEq, Repr, Inhabited

/-- The schedule of the agents past the events placed in `State.agenda`: a free value, one event per slot. DESIGN CHOICE
(log 4), safe: 00_scope.md R7 "Any enabled step of any agent of any unit may be taken next; the model fixes no schedule",
so nothing constrains it. -/
opaque schedule : Nat → Event

end Sys2Proof.Config
end

