-- ==== Sys2Proof/Syntax.lean ====
section
/-! DEFINITION. The six commands of the block (30_encoding.md R82), one constructor per row of spec/opcode_table.json. -/

namespace Sys2Proof

/-- A command. `hctx` is bit HCTX of the command word (30_encoding.md R81): the host wrote it while handling a notification.
`ch` is the channel index of 30_encoding.md R83. The width of ENCH and the period of CHPER are not in the word: they are
ARG's contents at the CMD write (R83); the configuration of START is in the staging registers (R82). -/
inductive Instr where
  | init  (hctx : Bool)
  | start (hctx : Bool)
  | stop  (hctx : Bool)
  | chper (hctx : Bool)
  | ench  (hctx : Bool) (ch : Nat)
  | disch (hctx : Bool) (ch : Nat)
  deriving DecidableEq, Repr

end Sys2Proof
end

