-- ==== Sys2Proof/Machine/State.lean ====
section
/-! DEFINITION. The state of the machine (10_state.md): every unit of `UNITS` with every field of R21 to R38, the
parameters, and the model's own bookkeeping of which agent steps next. Counts are natural numbers, as in 00_scope.md R9;
the widths are an invariant (log 11). -/

namespace Sys2Proof.Machine

open Sys2Proof (Word Byte)

/-- The driver state STATE (10_state.md R21). -/
inductive DriverState where
  | uninitialized
  | stopped
  | ready
  | active
  deriving DecidableEq, Repr

/-- The result code of the last completed command (10_state.md R27, 60_exceptions.md R182); codes 5..15 are never
written. -/
inductive ErrCode where
  | ok
  | config
  | invch
  | invstate
  | illegal
  deriving DecidableEq, Repr

/-- A channel mode (10_state.md R43); `reserved` is the value 3, which only the staging register can hold. -/
inductive ChannelMode where
  | disabled
  | activeHigh
  | activeLow
  | reserved
  deriving DecidableEq, Repr

/-- The kind of a notification (60_exceptions.md R189). -/
inductive NotifyKind where
  | channel
  | period
  | fault
  deriving DecidableEq, Repr

/-- A record `(UNIT_ID, KIND, CH)` of the notification stream (10_state.md R38). -/
structure Notification where
  unitId : Byte
  kind   : NotifyKind
  ch     : Nat
  deriving DecidableEq, Repr

/-- The fields of one channel `i` (10_state.md R22, R24, R25, R35, R36, R37). -/
structure Channel where
  /-- `ENABLED[i]`. -/
  enabled : Bool
  /-- `ACT_MODE[i]`, latched by START. -/
  actMode : ChannelMode
  /-- `ACT_CCB[i]`, latched by START. -/
  actCcb  : Bool
  /-- `CFG_MODE[i]`, staged by the host. -/
  cfgMode : ChannelMode
  /-- `CFG_CCB[i]`, staged by the host. -/
  cfgCcb  : Bool
  /-- `CCR[i]`, the active compare value. -/
  ccr     : Nat
  /-- `CCR_SH[i]`, its shadow. -/
  ccrSh   : Nat
  /-- `OE[i]`, output enable. -/
  oe      : Bool
  /-- `OE_SH[i]`, its shadow. -/
  oeSh    : Bool
  /-- `POL[i]`, 1 = the active level is low. -/
  pol     : Bool
  /-- `POL_SH[i]`, its shadow. -/
  polSh   : Bool
  /-- `CCIF[i]`, compare event pending. -/
  ccif    : Bool
  deriving DecidableEq, Repr

/-- One PWM unit: all the state of 10_state.md R21 to R38, and its entry of `UNITS`. -/
structure PwmUnit where
  /-- `(UNIT_ID, UNIT_BASE, IRQ_PRIO)`, constant. -/
  info      : Config.UnitInfo
  /-- STATE (R21). -/
  state     : DriverState
  /-- PERIOD (R23). -/
  period    : Nat
  /-- CFGV (R24). -/
  cfgv      : Bool
  /-- ACT_FREQ (R24). -/
  actFreq   : Word
  /-- ACT_PCB (R24). -/
  actPcb    : Bool
  /-- RAW_ACT (R24). -/
  rawAct    : Word
  /-- CFG_FREQ (R25). -/
  cfgFreq   : Word
  /-- CFG_PERIOD (R25). -/
  cfgPeriod : Word
  /-- CFG_PCB (R25). -/
  cfgPcb    : Bool
  /-- CFG_RAW (R25). -/
  cfgRaw    : Word
  /-- ARG (R26). -/
  arg       : Word
  /-- ERR (R27). -/
  err       : ErrCode
  /-- CLKEN (R28). -/
  clken     : Bool
  /-- CEN (R29). -/
  cen       : Bool
  /-- IE (R30). -/
  ie        : Bool
  /-- PSC (R31). -/
  psc       : Nat
  /-- PSC_CNT (R32), hidden. -/
  pscCnt    : Nat
  /-- CNT (R33). -/
  cnt       : Nat
  /-- ARR (R34). -/
  arr       : Nat
  /-- ARR_SH (R34). -/
  arrSh     : Nat
  /-- UIF (R37). -/
  uif       : Bool
  /-- OVR (R37). -/
  ovr       : Bool
  /-- The channels `0..CHANNELS-1`, in order. -/
  chans     : List Channel
  /-- NOTIFY (R38), oldest record first. -/
  notify    : List Notification
  deriving DecidableEq, Repr

/-- The machine: the units of `UNITS` and the model's own fields. -/
structure State where
  /-- The parameters of 00_scope.md R5, written by no step (log 1). -/
  params   : Config.Params
  /-- The units, in the order of `UNITS` (10_state.md R46). -/
  units    : List PwmUnit
  /-- The MODEL's own: the position of the unit whose CMD register was last written, the one `exec` acts on (log 6). -/
  sel      : Nat
  /-- The MODEL's own: the word the host's last read returned (log 7). -/
  readData : Word
  /-- The MODEL's own: the events placed so far, next one first (log 3). -/
  agenda   : List Config.Event
  /-- The MODEL's own: how many events of the free schedule have been taken (log 4). -/
  slot     : Nat
  deriving DecidableEq, Repr

/-- The lifecycle commands, which a handler must not issue (60_exceptions.md R183). -/
inductive LifecycleOp where
  | init
  | start
  | stop
  deriving DecidableEq, Repr

/-- The model faults: these three are all (60_exceptions.md R185). After one the unit has no further meaning
(00_scope.md R8). -/
inductive Fault where
  /-- Raised by INIT, START and STOP with HCTX = 1 (60_exceptions.md R183). Safe: the source calls the case undefined. -/
  | reentrantLifecycle (op : LifecycleOp)
  /-- Raised by INIT with HCTX = 0 outside Uninitialized (60_exceptions.md R184). Safe: the source calls it undefined. -/
  | doubleInit
  /-- Raised by a host access that is not admitted (20_memory.md R61). Safe: a real bus may allow more. -/
  | busError (addr n : Nat)
  deriving DecidableEq, Repr

/-- The refusals. No rule of the spec produces one (00_scope.md R8), and no step reaches one. -/
inductive Refusal where
  /-- Raised by `exec`'s arm of an instruction without a meaning; there is none. Safe. -/
  | notModelled (mnemonic : String)
  /-- Raised by a meaning applied to a state whose `sel` is the position of no unit; a step always selects a unit that
  exists (log 6). Safe. -/
  | noUnit
  deriving DecidableEq, Repr

/-- A channel after power-on reset: every field 0 (10_state.md R49). -/
def Channel.reset : Channel :=
  { enabled := false, actMode := .disabled, actCcb := false, cfgMode := .disabled, cfgCcb := false,
    ccr := 0, ccrSh := 0, oe := false, oeSh := false, pol := false, polSh := false, ccif := false }

/-- A unit after power-on reset: every field 0, NOTIFY empty (10_state.md R49, 70_reset_and_hazards.md R220). -/
def PwmUnit.reset (p : Config.Params) (info : Config.UnitInfo) : PwmUnit :=
  { info := info, state := .uninitialized, period := 0, cfgv := false, actFreq := 0, actPcb := false, rawAct := 0,
    cfgFreq := 0, cfgPeriod := 0, cfgPcb := false, cfgRaw := 0, arg := 0, err := .ok,
    clken := false, cen := false, ie := false, psc := 0, pscCnt := 0, cnt := 0, arr := 0, arrSh := 0,
    uif := false, ovr := false, chans := List.replicate p.channels Channel.reset, notify := [] }

/-- The machine with given parameters right after power-on reset. The model's own fields start at the values of
log 3, 4, 6 and 7. -/
def State.resetWith (p : Config.Params) (us : List Config.UnitInfo) : State :=
  { params := p, units := us.map (PwmUnit.reset p), sel := 0, readData := 0, agenda := [], slot := 0 }

/-- The machine right after reset, with the parameter values of 95_test_vectors.md section 0 (DESIGN CHOICE, log 2). -/
def State.reset : State := State.resetWith Config.sampleParams Config.sampleUnits

end Sys2Proof.Machine
end

