-- ==== Sys2Proof/Machine/Ops.lean ====
section
/-! DEFINITION. The shared operations: acting on one unit of the machine, ending a command with or without an error
(60_exceptions.md R181), the effects of STOP that START shares (41_lifecycle.md R122), and the preload transfer. -/

namespace Sys2Proof.Machine

open Host (Outcome)

/-- The value of STATE in STATUS[1:0] (10_state.md R21). -/
def DriverState.code : DriverState → Nat
  | .uninitialized => 0
  | .stopped       => 1
  | .ready         => 2
  | .active        => 3

/-- STATE is Ready or Active, where CHPER, ENCH and DISCH are valid (42_channel_ops.md R140-R142). -/
def DriverState.running : DriverState → Bool
  | .ready  => true
  | .active => true
  | _       => false

/-- The value of ERR in STATUS[7:4] (60_exceptions.md R182). -/
def ErrCode.code : ErrCode → Nat
  | .ok       => 0
  | .config   => 1
  | .invch    => 2
  | .invstate => 3
  | .illegal  => 4

/-- The value of a channel mode (10_state.md R43). -/
def ChannelMode.code : ChannelMode → Nat
  | .disabled   => 0
  | .activeHigh => 1
  | .activeLow  => 2
  | .reserved   => 3

/-- The channel mode of a two-bit value (10_state.md R43). -/
def ChannelMode.ofCode (n : Nat) : ChannelMode :=
  if n = 0 then .disabled else if n = 1 then .activeHigh else if n = 2 then .activeLow else .reserved

/-- The value of KIND in a notification word (60_exceptions.md R189). -/
def NotifyKind.code : NotifyKind → Nat
  | .channel => 0
  | .period  => 1
  | .fault   => 2

/-- The notification as a word: `[7:0]` ch, `[9:8]` kind, `[23:16]` UNIT_ID, other bits 0 (60_exceptions.md R189). -/
def Notification.word (r : Notification) : Word :=
  BitVec.ofNat 32 (r.ch % 2 ^ 8 + r.kind.code * 2 ^ 8 + r.unitId.toNat * 2 ^ 16)

/-- `s` with the unit at position `k` put through `f`; no other unit changes (10_state.md R46). -/
def State.modifyUnit (s : State) (k : Nat) (f : PwmUnit → PwmUnit) : State :=
  { s with units := s.units.modify k f }

/-- `s` with its selected unit replaced by `u`. -/
def State.putUnit (s : State) (u : PwmUnit) : State :=
  { s with units := s.units.set s.sel u }

/-- A command of the selected unit, as a step of the machine: it reads and writes that unit only (10_state.md R46). -/
def onSelected (s : State) (f : PwmUnit → Outcome PwmUnit Fault Refusal) : Outcome State Fault Refusal :=
  match s.units[s.sel]? with
  | none => .refused .noUnit
  | some u =>
    match f u with
    | .next u'   => .next (s.putUnit u')
    | .fault r   => .fault r
    | .refused r => .refused r

/-- `raise E()`: the command ends with ERR changed and nothing else (60_exceptions.md R181). It is this machine's one way
of taking an exception: nothing is saved, no control is transferred, and there is no return from it (R180, R192). -/
def raise (e : ErrCode) (u : PwmUnit) : Outcome PwmUnit Fault Refusal := .next { u with err := e }

/-- A command that completes without `raise` writes `ERR <- 0` (60_exceptions.md R181). -/
def complete (u : PwmUnit) : Outcome PwmUnit Fault Refusal := .next { u with err := .ok }

/-- The channel's part of `stop_effects` (41_lifecycle.md R122): every timer, latch and flag field 0, its ENABLED bit
cleared; the staging fields keep their values. -/
def Channel.stopEffects (c : Channel) : Channel :=
  { c with ccr := 0, ccrSh := 0, oe := false, oeSh := false, pol := false, polSh := false, ccif := false,
           actMode := .disabled, actCcb := false, enabled := false }

/-- `stop_effects` (41_lifecycle.md R122). -/
def PwmUnit.stopEffects (u : PwmUnit) : PwmUnit :=
  { u with cen := false, ie := false, clken := false,
           cnt := 0, pscCnt := 0, psc := 0, arr := 0, arrSh := 0,
           chans := u.chans.map Channel.stopEffects,
           uif := false, ovr := false, period := 0,
           cfgv := false, actFreq := 0, actPcb := false, rawAct := 0 }

/-- The wrap's transfer of one channel: compare and polarity become active together (43_counter_output.md R162). -/
def Channel.transferShadows (c : Channel) : Channel :=
  { c with ccr := c.ccrSh, oe := c.oeSh, pol := c.polSh }

/-- `u` with the channel at index `i` put through `f`. -/
def PwmUnit.modifyChannel (u : PwmUnit) (i : Nat) (f : Channel → Channel) : PwmUnit :=
  { u with chans := u.chans.modify i f }

end Sys2Proof.Machine
end

