-- ==== Sys2Proof/Machine/Operands.lean ====
section
/-! DEFINITION. Operand assembly (30_encoding.md R83) and the pure timer register mapping that turns operands into
register values (40_mapping.md R100-R105). -/

namespace Sys2Proof.Machine

/-- The width operand of ENCH: ARG's 32 unsigned bits at the CMD write (30_encoding.md R83). -/
def PwmUnit.widthOperand (u : PwmUnit) : Nat := u.arg.toNat

/-- The period operand of CHPER: ARG's 32 unsigned bits at the CMD write (30_encoding.md R83). -/
def PwmUnit.periodOperand (u : PwmUnit) : Nat := u.arg.toNat

/-- The result of `compute_timebase` where it succeeds (40_mapping.md R101). -/
structure Timebase where
  prescaler : Nat
  reload    : Nat
  deriving DecidableEq, Repr

/-- `compute_timebase(frequency, period)` (40_mapping.md R101); `none` is its `ConfigurationError`. -/
def computeTimebase (p : Config.Params) (frequency period : Nat) : Option Timebase :=
  if frequency = 0 then none
  else if period = 0 ∨ p.maxCount < period then none
  else if p.inputClockHz % frequency ≠ 0 then none
  else if p.pscMax < p.inputClockHz / frequency - 1 then none
  else some { prescaler := p.inputClockHz / frequency - 1, reload := period - 1 }

/-- The result of `compute_channel_register` (40_mapping.md R103). -/
structure ChannelRegister where
  compare : Nat
  oe      : Bool
  pol     : Bool
  deriving DecidableEq, Repr

/-- `mode != Disabled`: the pin is driven (40_mapping.md R103). -/
def ChannelMode.drives : ChannelMode → Bool
  | .disabled => false
  | .activeHigh | .activeLow | .reserved => true

/-- `mode == ActiveLow`: the active level is low (40_mapping.md R103). -/
def ChannelMode.activeIsLow : ChannelMode → Bool
  | .activeLow => true
  | .disabled | .activeHigh | .reserved => false

/-- `compute_channel_register(mode, width, period)` (40_mapping.md R103). It is never called with the mode value 3
(R105); there the formula of R103 is kept as it stands (log 19). -/
def computeChannelRegister (mode : ChannelMode) (width period : Nat) : ChannelRegister :=
  { compare := min width period
    oe      := mode.drives
    pol     := mode.activeIsLow }

end Sys2Proof.Machine
end

