-- ==== Sys2Proof/Machine/ChannelOps.lean ====
section
/-! DEFINITION. The period and channel commands CHPER, ENCH and DISCH (42_channel_ops.md R140-R144). They write shadow
registers of the timer only, and HCTX changes no result of theirs (30_encoding.md R81). -/

namespace Sys2Proof.Machine

open Host (Outcome)

/-- CHPER on one unit (42_channel_ops.md R140). -/
def chperUnit (p : Config.Params) (u : PwmUnit) : Outcome PwmUnit Fault Refusal :=
  if !u.state.running then raise .invstate u
  else
    match computeTimebase p u.actFreq.toNat u.periodOperand with
    | none => raise .config u
    | some t => complete { u with arrSh := t.reload, period := u.periodOperand }

/-- ENCH's write of one channel: compare and polarity of the latched mode into the shadows, the ENABLED bit set
(42_channel_ops.md R141). -/
def Channel.enable (width period : Nat) (c : Channel) : Channel :=
  let r := computeChannelRegister c.actMode width period
  { c with ccrSh := r.compare, oeSh := r.oe, polSh := r.pol, enabled := true }

/-- DISCH's write of one channel: Disabled polarity bits into the shadows, the ENABLED bit cleared
(42_channel_ops.md R142). -/
def Channel.disable (c : Channel) : Channel :=
  { c with oeSh := false, polSh := false, enabled := false }

/-- ENCH on one unit (42_channel_ops.md R141). -/
def enchUnit (p : Config.Params) (ch : Nat) (u : PwmUnit) : Outcome PwmUnit Fault Refusal :=
  if !u.state.running then raise .invstate u
  else if p.channels ≤ ch then raise .invch u
  else complete { u.modifyChannel ch (Channel.enable u.widthOperand u.period) with state := .active }

/-- DISCH on one unit (42_channel_ops.md R142). -/
def dischUnit (p : Config.Params) (ch : Nat) (u : PwmUnit) : Outcome PwmUnit Fault Refusal :=
  if !u.state.running then raise .invstate u
  else if p.channels ≤ ch then raise .invch u
  else complete (u.modifyChannel ch Channel.disable)

/-- The meaning of CHPER (42_channel_ops.md R140). -/
def execChper (_hctx : Bool) (s : State) : Outcome State Fault Refusal :=
  onSelected s (chperUnit s.params)

/-- The meaning of ENCH (42_channel_ops.md R141). -/
def execEnch (_hctx : Bool) (ch : Nat) (s : State) : Outcome State Fault Refusal :=
  onSelected s (enchUnit s.params ch)

/-- The meaning of DISCH (42_channel_ops.md R142). -/
def execDisch (_hctx : Bool) (ch : Nat) (s : State) : Outcome State Fault Refusal :=
  onSelected s (dischUnit s.params ch)

end Sys2Proof.Machine
end

