-- ==== Sys2Proof/Machine/Lifecycle.lean ====
section
/-! DEFINITION. The lifecycle commands INIT, START and STOP (41_lifecycle.md R120-R124). -/

namespace Sys2Proof.Machine

open Host (Outcome)

/-- INIT on one unit (41_lifecycle.md R120). -/
def initUnit (hctx : Bool) (u : PwmUnit) : Outcome PwmUnit Fault Refusal :=
  if hctx then .fault (.reentrantLifecycle .init)
  else if u.state ≠ .uninitialized then .fault .doubleInit
  else complete { u with state := .stopped }

/-- START's latch of the staging registers (41_lifecycle.md R121, 92_eei_decisions.md D16). -/
def PwmUnit.latchConfig (u : PwmUnit) : PwmUnit :=
  { u with cfgv := true, actFreq := u.cfgFreq, actPcb := u.cfgPcb, rawAct := u.cfgRaw,
           chans := u.chans.map fun c => { c with actMode := c.cfgMode, actCcb := c.cfgCcb },
           period := u.cfgPeriod.toNat }

/-- START's programming of one channel: both copies of the compare (0) and polarity of the latched mode
(41_lifecycle.md R121). -/
def Channel.program (period : Nat) (c : Channel) : Channel :=
  let r := computeChannelRegister c.actMode 0 period
  { c with ccr := r.compare, ccrSh := r.compare, oe := r.oe, oeSh := r.oe, pol := r.pol, polSh := r.pol }

/-- START's programming of the timer, with the counter held in reset (41_lifecycle.md R121). -/
def PwmUnit.programTimer (t : Timebase) (u : PwmUnit) : PwmUnit :=
  { u with psc := t.prescaler, arr := t.reload, arrSh := t.reload,
           chans := u.chans.map (Channel.program u.period), cnt := 0, pscCnt := 0 }

/-- START's release: clock gate on, interrupt unmasked, counter released, STATE Ready (41_lifecycle.md R121). -/
def PwmUnit.release (u : PwmUnit) : PwmUnit :=
  { u with clken := true, ie := true, cen := true, state := .ready }

/-- START on one unit (41_lifecycle.md R121): validation first, then the effects of STOP, then the commit. -/
def startUnit (p : Config.Params) (hctx : Bool) (u : PwmUnit) : Outcome PwmUnit Fault Refusal :=
  if hctx then .fault (.reentrantLifecycle .start)
  else if u.state = .uninitialized then raise .invstate u
  else if u.chans.any (fun c => decide (c.cfgMode = .reserved)) then raise .config u
  else
    match computeTimebase p u.cfgFreq.toNat u.cfgPeriod.toNat with
    | none => raise .config u
    | some t => complete (u.stopEffects.latchConfig.programTimer t).release

/-- STOP on one unit (41_lifecycle.md R122). -/
def stopUnit (hctx : Bool) (u : PwmUnit) : Outcome PwmUnit Fault Refusal :=
  if hctx then .fault (.reentrantLifecycle .stop)
  else if u.state = .uninitialized then raise .invstate u
  else complete { u.stopEffects with state := .stopped }

/-- The meaning of INIT (41_lifecycle.md R120). -/
def execInit (hctx : Bool) (s : State) : Outcome State Fault Refusal :=
  onSelected s (initUnit hctx)

/-- The meaning of START (41_lifecycle.md R121). -/
def execStart (hctx : Bool) (s : State) : Outcome State Fault Refusal :=
  onSelected s (startUnit s.params hctx)

/-- The meaning of STOP (41_lifecycle.md R122). -/
def execStop (hctx : Bool) (s : State) : Outcome State Fault Refusal :=
  onSelected s (stopUnit hctx)

end Sys2Proof.Machine
end

