-- ==== Sys2Proof/Machine/Dispatch.lean ====
section
/-! DEFINITION. `exec`: the command `i` executed by the unit `s.sel` selects (30_encoding.md R84), one arm per command. -/

namespace Sys2Proof.Machine

open Sys2Proof (Instr)

def exec (i : Instr) (s : State) : Host.Outcome State Fault Refusal :=
  match i with
  | .init hctx => Sys2Proof.Machine.execInit hctx s
  | .start hctx => Sys2Proof.Machine.execStart hctx s
  | .stop hctx => Sys2Proof.Machine.execStop hctx s
  | .chper hctx => Sys2Proof.Machine.execChper hctx s
  | .ench hctx ch => Sys2Proof.Machine.execEnch hctx ch s
  | .disch hctx ch => Sys2Proof.Machine.execDisch hctx ch s

end Sys2Proof.Machine
end

