-- ==== Sys2Proof/WellFormed.lean ====
section
/-! DEFINITION. Which commands a command word can hold: the channel index is the unsigned 8-bit field CH (30_encoding.md
R80, R83). An index of CHANNELS or more is well formed: it is the out-of-range channel INVCH reports. -/

namespace Sys2Proof

/-- The channel index fits the field CH. -/
def channelFits (ch : Nat) : Bool := ch < 256

/-- The command can be written as a command word. -/
def Instr.wellFormed : Instr → Bool
  | .init _     => true
  | .start _    => true
  | .stop _     => true
  | .chper _    => true
  | .ench _ ch  => channelFits ch
  | .disch _ ch => channelFits ch

end Sys2Proof
end

