-- ==== Sys2Proof/Decode.lean ====
section
/-! DEFINITION. The command word (30_encoding.md R80-R87): fields, decoding, encoding, and the byte order of a word on the
bus (20_memory.md R64). Decoding is total and rejects by name; a rejected word is the ILLEGAL command of R85. -/

namespace Sys2Proof

/-- `v[hi:lo]`, the unsigned field of bits `hi` down to `lo` (00_scope.md R9). -/
def bitField (v : Word) (hi lo : Nat) : Nat := v.toNat / 2 ^ lo % 2 ^ (hi + 1 - lo)

/-- `v[i]`, bit `i` (00_scope.md R9). -/
def bitAt (v : Word) (i : Nat) : Bool := v.getLsbD i

/-- Why bytes or a word are no command (30_encoding.md R85). -/
inductive Reject where
  /-- RES0, bits [7:4], is not 0. -/
  | reservedLow
  /-- RES1, bits [30:16], is not 0. -/
  | reservedHigh
  /-- OP is 0 or 7..15. -/
  | reservedOpcode (op : Nat)
  /-- CH is not 0 on a command that takes no channel. -/
  | unexpectedChannel (op ch : Nat)
  /-- Fewer than the four bytes of a command word. -/
  | truncated (bytes : Nat)
  deriving DecidableEq, Repr

/-- The command of an opcode 1..6 (30_encoding.md R82), once the checks of R84 have passed. -/
def commandOf (op ch : Nat) (h : Bool) : Instr :=
  if op = 1 then .init h
  else if op = 2 then .start h
  else if op = 3 then .stop h
  else if op = 4 then .chper h
  else if op = 5 then .ench h ch
  else .disch h ch

/-- `execute_command`'s decoding of a command word (30_encoding.md R84), total on every 32-bit value. -/
def decodeWord (v : Word) : Except Reject Instr :=
  let op := bitField v 3 0
  let ch := bitField v 15 8
  if bitField v 7 4 ≠ 0 then .error .reservedLow
  else if bitField v 30 16 ≠ 0 then .error .reservedHigh
  else if op = 0 ∨ 7 ≤ op then .error (.reservedOpcode op)
  else if op ≤ 4 ∧ ch ≠ 0 then .error (.unexpectedChannel op ch)
  else .ok (commandOf op ch (bitAt v 31))

/-- The bytes of a bus word, byte `k` being bits `[8k+7:8k]` (20_memory.md R64). -/
def wordBytes (v : Word) : List Byte :=
  [v.extractLsb' 0 8, v.extractLsb' 8 8, v.extractLsb' 16 8, v.extractLsb' 24 8]

/-- The decoder on bytes in bus order: the command of the first word, with the bytes after it. -/
def decodeBytes : List Byte → Except Reject (Instr × List Byte)
  | b0 :: b1 :: b2 :: b3 :: rest =>
    match decodeWord (b3 ++ b2 ++ b1 ++ b0) with
    | .ok i => .ok (i, rest)
    | .error r => .error r
  | bytes => .error (.truncated bytes.length)

/-- A command word from its fields, RES0 and RES1 zero (30_encoding.md R80). -/
def commandWord (op ch : Nat) (h : Bool) : Word :=
  BitVec.ofNat 32 (op + ch * 2 ^ 8 + h.toNat * 2 ^ 31)

/-- The encoded value of a command (30_encoding.md R82, R87). -/
def encode : Instr → Word
  | .init h     => commandWord 1 0 h
  | .start h    => commandWord 2 0 h
  | .stop h     => commandWord 3 0 h
  | .chper h    => commandWord 4 0 h
  | .ench h ch  => commandWord 5 ch h
  | .disch h ch => commandWord 6 ch h

/-- The command this decoder reads from the bits `w` of a row of spec/opcode_table.json: the word's four bytes in bus
order, every bit from `nbits` up being 0. -/
def decodeTableWord (nbits w : Nat) : Option Instr :=
  match decodeBytes (wordBytes (BitVec.ofNat 32 (w % 2 ^ nbits))) with
  | .ok (i, _) => some i
  | .error _ => none

end Sys2Proof
end

