-- ==== Sys2Proof/Machine/Registers.lean ====
section
/-! DEFINITION. The register map of a unit (10_state.md R40-R45): which register an offset names, what a read of it
returns (20_memory.md R62) and what a write to it stores (20_memory.md R63; CMD's effect is in Bus.lean). -/

namespace Sys2Proof.Machine

/-- A register of the block (10_state.md R40); `reserved` is an offset that holds none. -/
inductive RegName where
  | cmd | arg | status | enabled | period
  | cfgFreq | cfgPeriod | cfgCtrl | cfgRaw
  | psc | arr | arrSh | cnt | flags
  | unitInfo | rawAct | unitInfo2 | actFreq | actCtrl
  | chCfg (i : Nat) | chCcr (i : Nat) | chCcrSh (i : Nat) | chStat (i : Nat)
  | reserved
  deriving DecidableEq, Repr

/-- The rows of the map below the channel registers (10_state.md R40). -/
def fixedRegisters : List (Nat × RegName) :=
  [(0x000, .cmd), (0x004, .arg), (0x008, .status), (0x00C, .enabled), (0x010, .period),
   (0x014, .cfgFreq), (0x018, .cfgPeriod), (0x01C, .cfgCtrl), (0x020, .cfgRaw),
   (0x024, .psc), (0x028, .arr), (0x02C, .arrSh), (0x030, .cnt), (0x034, .flags),
   (0x038, .unitInfo), (0x03C, .rawAct), (0x040, .unitInfo2), (0x044, .actFreq), (0x048, .actCtrl)]

/-- The register of channel `i` at offset `r` in its 0x10-byte row (10_state.md R40). -/
def channelRegister (i r : Nat) : RegName :=
  if r = 0x0 then .chCfg i
  else if r = 0x4 then .chCcr i
  else if r = 0x8 then .chCcrSh i
  else if r = 0xC then .chStat i
  else .reserved

/-- The register at an offset of the window (10_state.md R40): channel rows exist for `i < CHANNELS`. -/
def regAt (p : Config.Params) (off : Nat) : RegName :=
  if off < 0x100 then
    match fixedRegisters.find? (fun row => row.1 == off) with
    | some row => row.2
    | none => .reserved
  else if (off - 0x100) / 0x10 < p.channels then channelRegister ((off - 0x100) / 0x10) ((off - 0x100) % 0x10)
  else .reserved

/-- The mask whose bit `i` is element `i` (10_state.md R22, R42). -/
def maskOf : List Bool → Nat
  | [] => 0
  | b :: bs => b.toNat + 2 * maskOf bs

/-- ENABLED (10_state.md R22). -/
def PwmUnit.enabledMask (u : PwmUnit) : Nat := maskOf (u.chans.map Channel.enabled)

/-- STATUS (10_state.md R41). -/
def PwmUnit.statusWord (u : PwmUnit) : Word :=
  BitVec.ofNat 32
    (u.state.code + u.err.code * 2 ^ 4 + u.cfgv.toNat * 2 ^ 8 + u.clken.toNat * 2 ^ 9 +
     u.cen.toNat * 2 ^ 10 + u.ie.toNat * 2 ^ 11)

/-- FLAGS (10_state.md R42). -/
def PwmUnit.flagsWord (u : PwmUnit) : Word :=
  BitVec.ofNat 32 (maskOf (u.chans.map Channel.ccif) + u.uif.toNat * 2 ^ 16 + u.ovr.toNat * 2 ^ 17)

/-- UNIT_INFO (10_state.md R44). -/
def PwmUnit.unitInfoWord (p : Config.Params) (u : PwmUnit) : Word :=
  BitVec.ofNat 32
    (u.info.id.toNat + p.channels % 2 ^ 8 * 2 ^ 8 + p.counterWidth % 2 ^ 8 * 2 ^ 16 + u.info.prio.toNat * 2 ^ 24)

/-- CH_CFG(i) (10_state.md R43). -/
def Channel.cfgWord (c : Channel) : Word := BitVec.ofNat 32 (c.cfgMode.code + c.cfgCcb.toNat * 2 ^ 2)

/-- CH_STAT(i) (10_state.md R45). -/
def Channel.statWord (c : Channel) : Word :=
  BitVec.ofNat 32
    (c.oe.toNat + c.pol.toNat * 2 + c.oeSh.toNat * 2 ^ 2 + c.polSh.toNat * 2 ^ 3 + c.actMode.code * 2 ^ 4 +
     c.actCcb.toNat * 2 ^ 6)

/-- A register of channel `i` as a view of that channel; a channel that does not exist reads 0. -/
def PwmUnit.channelWord (u : PwmUnit) (i : Nat) (view : Channel → Word) : Word :=
  match u.chans[i]? with
  | some c => view c
  | none => 0

/-- The word a read of a register returns (20_memory.md R62): CMD and reserved offsets read 0. -/
def readReg (p : Config.Params) (u : PwmUnit) : RegName → Word
  | .cmd       => 0
  | .arg       => u.arg
  | .status    => u.statusWord
  | .enabled   => BitVec.ofNat 32 u.enabledMask
  | .period    => BitVec.ofNat 32 u.period
  | .cfgFreq   => u.cfgFreq
  | .cfgPeriod => u.cfgPeriod
  | .cfgCtrl   => BitVec.ofNat 32 u.cfgPcb.toNat
  | .cfgRaw    => u.cfgRaw
  | .psc       => BitVec.ofNat 32 u.psc
  | .arr       => BitVec.ofNat 32 u.arr
  | .arrSh     => BitVec.ofNat 32 u.arrSh
  | .cnt       => BitVec.ofNat 32 u.cnt
  | .flags     => u.flagsWord
  | .unitInfo  => u.unitInfoWord p
  | .rawAct    => u.rawAct
  | .unitInfo2 => BitVec.ofNat 32 (p.pscWidth % 2 ^ 8)
  | .actFreq   => u.actFreq
  | .actCtrl   => BitVec.ofNat 32 u.actPcb.toNat
  | .chCfg i   => u.channelWord i Channel.cfgWord
  | .chCcr i   => u.channelWord i fun c => BitVec.ofNat 32 c.ccr
  | .chCcrSh i => u.channelWord i fun c => BitVec.ofNat 32 c.ccrSh
  | .chStat i  => u.channelWord i Channel.statWord
  | .reserved  => 0

/-- What a write of `v` stores in a register other than CMD (20_memory.md R63): read-only registers, reserved offsets
and reserved bits ignore it. -/
def writeReg (v : Word) (u : PwmUnit) : RegName → PwmUnit
  | .arg       => { u with arg := v }
  | .cfgFreq   => { u with cfgFreq := v }
  | .cfgPeriod => { u with cfgPeriod := v }
  | .cfgCtrl   => { u with cfgPcb := bitAt v 0 }
  | .cfgRaw    => { u with cfgRaw := v }
  | .chCfg i   => u.modifyChannel i fun c =>
      { c with cfgMode := ChannelMode.ofCode (bitField v 1 0), cfgCcb := bitAt v 2 }
  | .cmd | .status | .enabled | .period | .psc | .arr | .arrSh | .cnt | .flags | .unitInfo | .rawAct | .unitInfo2
  | .actFreq | .actCtrl | .chCcr _ | .chCcrSh _ | .chStat _ | .reserved => u

end Sys2Proof.Machine
end

