-- ==== Sys2Proof/Machine/Bus.lean ====
section
/-! DEFINITION. The Host agent (20_memory.md R60-R67): which bus accesses are admitted, and the read and the write. -/

namespace Sys2Proof.Machine

open Host (Outcome)

/-- The address lies in the unit's window (10_state.md R40). -/
def PwmUnit.owns (u : PwmUnit) (a : Nat) : Bool :=
  decide (u.info.base ≤ a ∧ a < u.info.base + Config.windowBytes)

/-- The position of the unit whose window holds `a`, and the offset of `a` in it. -/
def locate (a : Nat) : List PwmUnit → Option (Nat × Nat)
  | [] => none
  | u :: us =>
    if u.owns a then some (0, a - u.info.base)
    else
      match locate a us with
      | none => none
      | some (k, off) => some (k + 1, off)

/-- The unit and offset of an admitted access: `n = 4`, an aligned offset of a unit's window (20_memory.md R61). -/
def admitted (s : State) (a n : Nat) : Option (Nat × Nat) :=
  match locate a s.units with
  | none => none
  | some (k, off) => if n = 4 ∧ off % 4 = 0 then some (k, off) else none

/-- An admitted `MemRead` returns the register's word and changes no unit; any other is a BusError
(20_memory.md R61, R62). -/
def hostRead (a n : Nat) (s : State) : Outcome State Fault Refusal :=
  match admitted s a n with
  | none => .fault (.busError a n)
  | some (k, off) =>
    match s.units[k]? with
    | none => .refused .noUnit
    | some u => .next { s with readData := readReg s.params u (regAt s.params off) }

/-- `execute_command(v)` on the selected unit (30_encoding.md R84): a word that is no command raises ILLEGAL (R85). -/
def executeCommand (v : Word) (s : State) : Outcome State Fault Refusal :=
  match decodeWord v with
  | .ok i => exec i s
  | .error _ => onSelected s (raise .illegal)

/-- An admitted `MemWrite` executes a command at CMD and stores elsewhere; any other is a BusError
(20_memory.md R61, R63). -/
def hostWrite (a n : Nat) (v : Word) (s : State) : Outcome State Fault Refusal :=
  match admitted s a n with
  | none => .fault (.busError a n)
  | some (k, off) =>
    if regAt s.params off = .cmd then executeCommand v { s with sel := k }
    else .next (s.modifyUnit k fun u => writeReg v u (regAt s.params off))

end Sys2Proof.Machine
end

