-- ==== Sys2Proof/Machine/Flags.lean ====
section
/-! DEFINITION. The event flags: raising one (43_counter_output.md R163), the compare test of a tick (R162), and whether
any flag is pending (60_exceptions.md R187). -/

namespace Sys2Proof.Machine

/-- `raise_flag(F)` on the pair `(F, OVR)` (43_counter_output.md R163). -/
def raiseFlag (flag ovr : Bool) : Bool × Bool :=
  if flag then (true, true) else (true, ovr)

/-- A compare event of this channel at counter value `cnt` (43_counter_output.md R162): enabled, and the counter
matches. -/
def Channel.matchesAt (c : Channel) (cnt : Nat) : Bool := c.enabled && cnt == c.ccr

/-- The compare loop of TICK (43_counter_output.md R162), ascending: the channels and OVR after it. -/
def raiseCompares (cnt : Nat) : List Channel → Bool → List Channel × Bool
  | [], ovr => ([], ovr)
  | c :: cs, ovr =>
    if c.matchesAt cnt then
      let f := raiseFlag c.ccif ovr
      let r := raiseCompares cnt cs f.2
      ({ c with ccif := f.1 } :: r.1, r.2)
    else
      let r := raiseCompares cnt cs ovr
      (c :: r.1, r.2)

/-- Some event flag is pending: UIF, OVR or some CCIF[i] (60_exceptions.md R187). -/
def PwmUnit.flagPending (u : PwmUnit) : Bool := u.uif || u.ovr || u.chans.any Channel.ccif

/-- The unit with every event flag 0 (60_exceptions.md R187). -/
def PwmUnit.clearFlags (u : PwmUnit) : PwmUnit :=
  { u with uif := false, ovr := false, chans := u.chans.map fun c => { c with ccif := false } }

end Sys2Proof.Machine
end

