-- ==== Sys2Proof/Machine/Counter.lean ====
section
/-! DEFINITION. The Counter agent and the outputs (43_counter_output.md R160-R166): the prescaler, the tick, the preload
transfer at the wrap, the events it raises, and the pin levels. -/

namespace Sys2Proof.Machine

/-- The wrap (43_counter_output.md R162): CNT returns to 0, every shadow becomes active, the period-reset event is
raised. -/
def PwmUnit.wrap (u : PwmUnit) : PwmUnit :=
  let f := raiseFlag u.uif u.ovr
  { u with cnt := 0, arr := u.arrSh, chans := u.chans.map Channel.transferShadows, uif := f.1, ovr := f.2 }

/-- The counting part of TICK: wrap after the reload value, else count up (43_counter_output.md R162). -/
def PwmUnit.count (u : PwmUnit) : PwmUnit :=
  if u.cnt = u.arr then u.wrap else { u with cnt := u.cnt + 1 }

/-- The compare part of TICK, on the counter and compare values after the counting part (43_counter_output.md R162). -/
def PwmUnit.compareEvents (u : PwmUnit) : PwmUnit :=
  let r := raiseCompares u.cnt u.chans u.ovr
  { u with chans := r.1, ovr := r.2 }

/-- TICK (43_counter_output.md R162). -/
def PwmUnit.tick (u : PwmUnit) : PwmUnit := u.count.compareEvents

/-- The Counter takes a step exactly when this holds (43_counter_output.md R160). -/
def PwmUnit.clkEnabled (u : PwmUnit) : Bool := u.clken && u.cen

/-- CLK (43_counter_output.md R161). Where the step is not enabled, an input-clock cycle changes nothing (log 5). -/
def PwmUnit.clk (u : PwmUnit) : PwmUnit :=
  if u.clkEnabled then
    if u.pscCnt < u.psc then { u with pscCnt := u.pscCnt + 1 } else { u with pscCnt := 0 }.tick
  else u

/-- The level of a pin (10_state.md R39): low, high, or `Z`, not driven. -/
inductive PinLevel where
  | low
  | high
  | z
  deriving DecidableEq, Repr

/-- A channel is active while `CNT < CCR[i]` (43_counter_output.md R165). -/
def Channel.activeAt (c : Channel) (cnt : Nat) : Bool := decide (cnt < c.ccr)

/-- `PIN[i]` (43_counter_output.md R166); a channel that does not exist drives nothing. -/
def PwmUnit.pin (u : PwmUnit) (i : Nat) : PinLevel :=
  match u.chans[i]? with
  | none => .z
  | some c =>
    if !u.clken || !c.oe then .z
    else if (c.activeAt u.cnt) ^^ c.pol then .high else .low

/-- The port RAW_OUT (10_state.md R39). -/
def PwmUnit.rawOut (u : PwmUnit) : Word := u.rawAct

/-- The port CLKEN (10_state.md R28). -/
def PwmUnit.clkenPort (u : PwmUnit) : Bool := u.clken

end Sys2Proof.Machine
end

