-- ==== Sys2Proof/Machine/Dispatcher.lean ====
section
/-! DEFINITION. The Dispatcher agent (60_exceptions.md R186-R192): one step snapshots and clears every event flag and emits
the notifications the configured callbacks ask for. -/

namespace Sys2Proof.Machine

/-- The CHANNEL notifications of one DISPATCH, in ascending channel order from index `i` (60_exceptions.md R187). -/
def channelNotes (unitId : Byte) : Nat → List Channel → List Notification
  | _, [] => []
  | i, c :: cs =>
    (if c.ccif && c.enabled && c.actCcb then [{ unitId := unitId, kind := .channel, ch := i }] else []) ++
      channelNotes unitId (i + 1) cs

/-- The records one DISPATCH emits, in order: channels, then PERIOD, then FAULT (60_exceptions.md R187, R191). -/
def PwmUnit.notes (u : PwmUnit) : List Notification :=
  channelNotes u.info.id 0 u.chans ++
    (if u.uif && u.actPcb then [{ unitId := u.info.id, kind := .period, ch := 0 }] else []) ++
    (if u.ovr && u.actPcb then [{ unitId := u.info.id, kind := .fault, ch := 0 }] else [])

/-- The Dispatcher takes a step exactly when this holds (60_exceptions.md R187). -/
def PwmUnit.dispatchEnabled (u : PwmUnit) : Bool := u.ie && u.flagPending

/-- DISPATCH (60_exceptions.md R187). Where the step is not enabled, nothing changes (log 5). -/
def PwmUnit.dispatch (u : PwmUnit) : PwmUnit :=
  if u.dispatchEnabled then { u.clearFlags with notify := u.notify ++ u.notes } else u

end Sys2Proof.Machine
end

