-- ==== Sys2Proof/Machine/Agents.lean ====
section
/-! DEFINITION. One step of one agent (00_scope.md R7), and how the next one is chosen: the head of the agenda, or the
free schedule past its end. -/

namespace Sys2Proof.Machine

open Host (Outcome)

/-- A host access (20_memory.md R61). -/
def access : Config.BusAccess → State → Outcome State Fault Refusal
  | .read a n, s    => hostRead a n s
  | .write a n v, s => hostWrite a n v s

/-- The atomic step of the agent an event names (00_scope.md R7). -/
def perform : Config.Event → State → Outcome State Fault Refusal
  | .host b, s     => access b s
  | .clk k, s      => .next (s.modifyUnit k PwmUnit.clk)
  | .dispatch k, s => .next (s.modifyUnit k PwmUnit.dispatch)

/-- The next event and the state once it is taken off the schedule (log 3, 4). -/
def takeEvent (s : State) : Config.Event × State :=
  match s.agenda with
  | e :: rest => (e, { s with agenda := rest })
  | [] => (Config.schedule s.slot, { s with slot := s.slot + 1 })

/-- `s` with the host's write of the command word `v` to the CMD register of the selected unit placed next
(log 8). -/
def State.placeCommand (s : State) (v : Word) : State :=
  match s.units[s.sel]? with
  | none => s
  | some u => { s with agenda := .host (.write u.info.base 4 v) :: s.agenda }

end Sys2Proof.Machine
end

