-- ==== Sys2Proof/Machine/Step.lean ====
section
/-! DEFINITION. One step of the machine: the next event of the schedule, performed (00_scope.md R7, R8). -/

namespace Sys2Proof.Machine

/-- One atomic step of one agent. -/
def step (s : State) : Host.Outcome State Fault Refusal :=
  perform (takeEvent s).1 (takeEvent s).2

/-- `s` with the command word `w` placed as the next event: the host's write of it to CMD of the selected unit. The block
fetches no instructions (20_memory.md R71), so this stands for the host's access (log 8). -/
def State.withFetchWord (s : State) (nbits w : Nat) : State :=
  s.placeCommand (BitVec.ofNat 32 (w % 2 ^ nbits))

end Sys2Proof.Machine
end

