-- ==== Sys2Proof/Machine/Program.lean ====
section
/-! DEFINITION. The spec's assembler for host programs (30_encoding.md R88-R91): each line as the events it stands for. -/

namespace Sys2Proof.Machine

open Sys2Proof.Config (Event)

/-- A line of a host program (30_encoding.md R88-R91); `h` is the suffix `.h`;
`busWrite` and `busRead` are the lines `W` and `R`. -/
inductive Line where
  | busWrite (off : Nat) (v : Word)
  | busRead (off : Nat)
  | clk (k : Nat)
  | disp
  | init (h : Bool)
  | start (h : Bool)
  | stop (h : Bool)
  | chper (h : Bool) (p : Word)
  | ench (h : Bool) (c : Nat) (width : Word)
  | disch (h : Bool) (c : Nat)
  | cfg (f p pcb : Word)
  | cfgch (c : Nat) (mode ccb : Nat)
  | cfgraw (v : Word)
  | status
  deriving DecidableEq, Repr

/-- `MemWrite(UNIT_BASE + off, 4, v)` (30_encoding.md R88). -/
def writeEvent (base off : Nat) (v : Word) : Event := .host (.write (base + off) 4 v)

/-- `MemRead(UNIT_BASE + off, 4)` (30_encoding.md R88). -/
def readEvent (base off : Nat) : Event := .host (.read (base + off) 4)

/-- The expansion of a line for the unit at position `k` whose window is at `base` (30_encoding.md R88, R90, R91). -/
def Line.expand (k base : Nat) : Line → List Event
  | .busWrite off v => [writeEvent base off v]
  | .busRead off  => [readEvent base off]
  | .clk n        => List.replicate n (.clk k)
  | .disp         => [.dispatch k]
  | .init h       => [writeEvent base 0x000 (encode (.init h))]
  | .start h      => [writeEvent base 0x000 (encode (.start h))]
  | .stop h       => [writeEvent base 0x000 (encode (.stop h))]
  | .chper h p    => [writeEvent base 0x004 p, writeEvent base 0x000 (encode (.chper h))]
  | .ench h c width => [writeEvent base 0x004 width, writeEvent base 0x000 (encode (.ench h c))]
  | .disch h c    => [writeEvent base 0x000 (encode (.disch h c))]
  | .cfg f p pcb  => [writeEvent base 0x014 f, writeEvent base 0x018 p, writeEvent base 0x01C pcb]
  | .cfgch c m b  => [writeEvent base (0x100 + 0x10 * c) (BitVec.ofNat 32 (m + b * 2 ^ 2))]
  | .cfgraw v     => [writeEvent base 0x020 v]
  | .status       => [readEvent base 0x008]

end Sys2Proof.Machine
end

