-- ==== Sys2Proof/Safety.lean ====
section
/-! DEFINITION. What counts as a good state and a good step, in the terms the claims use: the invariants of 10_state.md R47
and R48, the outcome a command must report (60_exceptions.md R185), and names for what a step does. -/

namespace Sys2Proof.Machine

open Host (Outcome)
open Config (Params)

/-- Every timer, latch and flag field of a channel is 0 (10_state.md R47). -/
structure Channel.Quiet (c : Channel) : Prop where
  enabled : c.enabled = false
  actMode : c.actMode = .disabled
  actCcb  : c.actCcb = false
  ccr     : c.ccr = 0
  ccrSh   : c.ccrSh = 0
  oe      : c.oe = false
  oeSh    : c.oeSh = false
  pol     : c.pol = false
  polSh   : c.polSh = false
  ccif    : c.ccif = false

/-- "`CLKEN = CEN = IE = CFGV = 0`, `ENABLED = 0`, `PERIOD = 0`, and every field of rules R24 and R31 to R37 is 0"
(10_state.md R47). -/
structure PwmUnit.Quiet (u : PwmUnit) : Prop where
  clken   : u.clken = false
  cen     : u.cen = false
  ie      : u.ie = false
  cfgv    : u.cfgv = false
  period  : u.period = 0
  actFreq : u.actFreq = 0
  actPcb  : u.actPcb = false
  rawAct  : u.rawAct = 0
  psc     : u.psc = 0
  pscCnt  : u.pscCnt = 0
  cnt     : u.cnt = 0
  arr     : u.arr = 0
  arrSh   : u.arrSh = 0
  uif     : u.uif = false
  ovr     : u.ovr = false
  chans   : ∀ c ∈ u.chans, c.Quiet

/-- The channel part of 10_state.md R48, and the latched mode is one of the three that exist (40_mapping.md R105). -/
structure Channel.Bounded (p : Params) (c : Channel) : Prop where
  ccr     : c.ccr ≤ p.maxCount
  ccrSh   : c.ccrSh ≤ p.maxCount
  actMode : c.actMode ≠ .reserved

/-- 10_state.md R48, with the prescaler facts of 40_mapping.md R102 and the range of PSC_CNT (10_state.md R32). -/
structure PwmUnit.Running (p : Params) (u : PwmUnit) : Prop where
  clken     : u.clken = true
  cen       : u.cen = true
  ie        : u.ie = true
  cfgv      : u.cfgv = true
  periodPos : 1 ≤ u.period
  periodMax : u.period ≤ p.maxCount
  arrSh     : u.arrSh + 1 = u.period
  arr       : u.arr + 1 ≤ p.maxCount
  cnt       : u.cnt ≤ u.arr
  psc       : u.psc ≤ p.pscMax
  pscCnt    : u.pscCnt ≤ u.psc
  freq      : (u.psc + 1) * u.actFreq.toNat = p.inputClockHz
  chans     : ∀ c ∈ u.chans, c.Bounded p
  enabled   : (∃ c ∈ u.chans, c.enabled = true) → u.state = .active

/-- The invariant of one unit: one channel record per channel, R47 in Uninitialized and Stopped, R48 in Ready and
Active. -/
structure PwmUnit.Inv (p : Params) (u : PwmUnit) : Prop where
  channels : u.chans.length = p.channels
  idle     : u.state.running = false → u.Quiet
  running  : u.state.running = true → u.Running p

/-- The invariant of the machine: the parameters are in the ranges of 00_scope.md R5, and so is every unit. -/
structure State.Inv (s : State) : Prop where
  params : s.params.Valid
  infos  : Config.UnitsValid s.params (s.units.map PwmUnit.info)
  units  : ∀ u ∈ s.units, u.Inv s.params

/-- A good step: it neither faults nor is refused (00_scope.md R8, 70_reset_and_hazards.md R231). -/
def Good (o : Outcome State Fault Refusal) : Prop := ∃ s', o = .next s'

/-- The frequency and the period can be mapped to register values, in the words of 40_mapping.md R101: an exact division
with a prescaler in range, and a period in `1..MAX_COUNT`. -/
abbrev Mappable (p : Params) (frequency period : Nat) : Prop :=
  frequency ≠ 0 ∧ 1 ≤ period ∧ period ≤ p.maxCount ∧ frequency ∣ p.inputClockHz ∧
    p.inputClockHz / frequency ≤ p.pscMax + 1

/-- A word that 30_encoding.md R85 calls an illegal command. -/
abbrev IllegalWord (v : Word) : Prop :=
  bitField v 3 0 = 0 ∨ 7 ≤ bitField v 3 0 ∨ bitField v 7 4 ≠ 0 ∨ bitField v 30 16 ≠ 0 ∨
    (bitField v 3 0 ≤ 4 ∧ bitField v 15 8 ≠ 0)

/-- What a command word reports: an error code, or one of the two faults of a command (60_exceptions.md R185). -/
inductive Report where
  | code (e : ErrCode)
  | fault (f : Fault)
  deriving DecidableEq, Repr

/-- The lifecycle command of OP 1, 2, 3 (30_encoding.md R82). -/
def lifecycleOf (op : Nat) : LifecycleOp := if op = 1 then .init else if op = 2 then .start else .stop

/-- The one outcome a command word reports, in the order (1) to (6) of 60_exceptions.md R185, read off the word's bits and
the unit's fields. -/
def expectedReport (p : Params) (u : PwmUnit) (v : Word) : Report :=
  let op := bitField v 3 0
  if IllegalWord v then .code .illegal
  else if op ≤ 3 ∧ bitAt v 31 = true then .fault (.reentrantLifecycle (lifecycleOf op))
  else if op = 1 ∧ u.state ≠ .uninitialized then .fault .doubleInit
  else if (op = 2 ∨ op = 3) ∧ u.state = .uninitialized ∨
      4 ≤ op ∧ u.state ≠ .ready ∧ u.state ≠ .active then .code .invstate
  else if 5 ≤ op ∧ p.channels ≤ bitField v 15 8 then .code .invch
  else if op = 2 ∧ ((∃ c ∈ u.chans, c.cfgMode = .reserved) ∨ ¬ Mappable p u.cfgFreq.toNat u.cfgPeriod.toNat) ∨
      op = 4 ∧ ¬ Mappable p u.actFreq.toNat u.arg.toNat then .code .config
  else .code .ok

/-- A cell of the table of 41_lifecycle.md R123: the STATE a successful command leads to. -/
def successState : Instr → DriverState → DriverState
  | .init _, _    => .stopped
  | .start _, _   => .ready
  | .stop _, _    => .stopped
  | .chper _, d   => d
  | .ench _ _, _  => .active
  | .disch _ _, d => d

/-- The event the next step performs. -/
def State.nextEvent (s : State) : Config.Event := (takeEvent s).1

/-- The next step is an admitted write of the word `v` to CMD of the unit at position `k`. -/
def State.writesCmd (s : State) (k : Nat) (v : Word) : Prop :=
  ∃ a n, s.nextEvent = .host (.write a n v) ∧ admitted s a n = some (k, 0)

/-- The next step executes command `i` on the unit at position `k`. -/
def State.runs (s : State) (k : Nat) (i : Instr) : Prop :=
  ∃ v, s.writesCmd k v ∧ decodeWord v = .ok i

/-- The next step is a START or STOP command on the unit at position `k`. -/
def State.restarts (s : State) (k : Nat) : Prop :=
  ∃ h, s.runs k (.start h) ∨ s.runs k (.stop h)

/-- The next input-clock cycle of the unit is a tick of its counter (43_counter_output.md R161). -/
def PwmUnit.ticksNow (u : PwmUnit) : Prop := u.clkEnabled = true ∧ u.psc ≤ u.pscCnt

/-- That tick is a wrap (43_counter_output.md R162). -/
def PwmUnit.wrapsNow (u : PwmUnit) : Prop := u.ticksNow ∧ u.cnt = u.arr

/-- The registers the waveform of a unit is made of: ARR and every channel's CCR, OE and POL (43_counter_output.md R168). -/
def PwmUnit.waveform (u : PwmUnit) : Nat × List (Nat × Bool × Bool) :=
  (u.arr, u.chans.map fun c => (c.ccr, c.oe, c.pol))

/-- How many of the `ARR + 1` values CNT takes in one period put pin `i` at `level` (43_counter_output.md R167). -/
def PwmUnit.ticksAt (u : PwmUnit) (i : Nat) (level : PinLevel) : Nat :=
  (List.range (u.arr + 1)).countP fun n => decide ({ u with cnt := n }.pin i = level)

/-- The unit with ERR, the staging registers, ARG and NOTIFY blanked: what 41_lifecycle.md R124 compares. -/
def PwmUnit.withoutHostFields (u : PwmUnit) : PwmUnit :=
  { u with err := .ok, cfgFreq := 0, cfgPeriod := 0, cfgPcb := false, cfgRaw := 0, arg := 0, notify := [],
           chans := u.chans.map fun c => { c with cfgMode := .disabled, cfgCcb := false } }

/-- Placed as the next event, a host read at offset `off` of the unit at position `k` returns the word `w`, and changes
nothing but the agenda it came from and the word the host has read (20_memory.md R62). -/
def State.ReadsAs (s : State) (k off : Nat) (w : Word) : Prop :=
  ∀ u rest, s.units[k]? = some u →
    step { s with agenda := .host (.read (u.info.base + off) 4) :: rest } =
      .next { s with agenda := rest, readData := w }

/-- Placed as the next event, the host's write of `v` at offset `off` of the unit at position `k` puts that unit through
`f`, and changes nothing else but the agenda it came from (20_memory.md R63). -/
def State.WritesAs (s : State) (k off : Nat) (v : Word) (f : PwmUnit → PwmUnit) : Prop :=
  ∀ u rest, s.units[k]? = some u →
    step { s with agenda := .host (.write (u.info.base + off) 4 v) :: rest } =
      .next { s with agenda := rest, units := s.units.set k (f u) }

end Sys2Proof.Machine
end

