-- ==== Sys2Proof/Certificates/Slice0/Obligations.lean ====
section
/-! DEFINITION. The statements for the provers, from the spec's numbered rules. Every statement is over every parameter set
and every placed schedule (log 1, 3); a hypothesis `s.units[s.sel]? = some u` names the unit a command acts on (log 6). -/

open Sys2Proof Sys2Proof.Machine
open Sys2Proof.Config (Params UnitInfo Event)
open Host (Outcome)

/-! ## Command words -/

/-- What `encode` gives: the encoded values of 30_encoding.md section 4 for the six commands, HCTX adding 0x80000000. -/
def Obligations.CommandWordsHaveTheirEncodedValues : Prop :=
  (encode (.init false) = 0x00000001 ∧ encode (.start false) = 0x00000002 ∧ encode (.stop false) = 0x00000003 ∧
    encode (.chper false) = 0x00000004) ∧
  (∀ c : Nat, c < 256 → encode (.ench false c) = 0x00000005 ||| (BitVec.ofNat 32 c <<< 8) ∧
    encode (.disch false c) = 0x00000006 ||| (BitVec.ofNat 32 c <<< 8)) ∧
  (encode (.init true) = 0x80000001 ∧ encode (.start true) = 0x80000002 ∧ encode (.stop true) = 0x80000003 ∧
    encode (.chper true) = 0x80000004) ∧
  (∀ c : Nat, encode (.ench true c) = 0x80000000 + encode (.ench false c) ∧
    encode (.disch true c) = 0x80000000 + encode (.disch false c))

/-- A few command words written out from 30_encoding.md R80 and R82, one per command. -/
def Obligations.SampleWordsDecodeToTheirCommands : Prop :=
  decodeWord 0x00000001 = .ok (.init false) ∧ decodeWord 0x00000002 = .ok (.start false) ∧
  decodeWord 0x80000003 = .ok (.stop true) ∧ decodeWord 0x00000004 = .ok (.chper false) ∧
  decodeWord 0x00000205 = .ok (.ench false 2) ∧ decodeWord 0x80000006 = .ok (.disch true 0)

/-- Decode and encode agree on every well-formed command. -/
def Obligations.DecodeOfEncodeIsTheCommand : Prop :=
  ∀ i : Instr, i.wellFormed = true → decodeWord (encode i) = .ok i

/-- A word that decodes is the encoding of the command it decodes to, which is well formed: no two words mean one
command, and no bit is ignored. -/
def Obligations.EncodeOfDecodeIsTheWord : Prop :=
  ∀ (v : Word) (i : Instr), decodeWord v = .ok i → encode i = v ∧ i.wellFormed = true

/-- The words that decode are exactly those that match a row (mask, match) of spec/opcode_table.json. -/
def Obligations.WordsDecodeExactlyWhenTheyMatchTheOpcodeTable : Prop :=
  ∀ v : Word, (∃ i, decodeWord v = .ok i) ↔
    ∃ row ∈ [((0x7FFFFFFF : Word), (0x00000001 : Word)), (0x7FFFFFFF, 0x00000002), (0x7FFFFFFF, 0x00000003),
      (0x7FFFFFFF, 0x00000004), (0x7FFF00FF, 0x00000005), (0x7FFF00FF, 0x00000006)], v &&& row.1 = row.2

/-- 30_encoding.md R85: an illegal word written to CMD changes nothing but ERR, which becomes ILLEGAL; it never faults,
whatever its bit HCTX. (`sel` and the agenda are the model's own, log 3 and 6.) -/
def Obligations.IllegalWordsChangeOnlyErr : Prop :=
  ∀ (s : State) (k : Nat) (u : PwmUnit) (a : Nat) (v : Word) (rest : List Event),
    s.agenda = .host (.write a 4 v) :: rest → admitted s a 4 = some (k, 0) → s.units[k]? = some u → IllegalWord v →
    step s = .next { s with agenda := rest, sel := k, units := s.units.set k { u with err := .illegal } }

/-! ## Steps and accesses -/

/-- When the next event is a host's admitted write to CMD of a word that decodes to `i`, the step is `exec i` on the state
with that event taken off the agenda and that unit selected (30_encoding.md R84). -/
def Obligations.StepRunsTheDecodedCommand : Prop :=
  ∀ (s : State) (k a : Nat) (v : Word) (i : Instr) (rest : List Event),
    s.agenda = .host (.write a 4 v) :: rest → admitted s a 4 = some (k, 0) → decodeWord v = .ok i →
    step s = exec i { s with agenda := rest, sel := k }

/-- A command word placed by `withFetchWord` runs on the selected unit (the placement is the model's, log 8). -/
def Obligations.PlacedCommandWordRunsOnTheSelectedUnit : Prop :=
  ∀ (s : State) (u : PwmUnit) (v : Word) (i : Instr), s.Inv → s.units[s.sel]? = some u → decodeWord v = .ok i →
    step (s.withFetchWord 32 v.toNat) = exec i s

/-- 20_memory.md R61: an access to a unit's window is admitted, at that unit and offset, exactly when it is four bytes wide
and aligned; every other access to the window, read or write, is a BusError and there is no next state. -/
def Obligations.WindowAccessIsAdmittedExactlyWhenAlignedWord : Prop :=
  ∀ (s : State) (k : Nat) (u : PwmUnit) (off n : Nat) (v : Word) (rest : List Event),
    s.Inv → s.units[k]? = some u → off < 0x200 →
    ((n = 4 ∧ off % 4 = 0) → admitted s (u.info.base + off) n = some (k, off)) ∧
    (¬ (n = 4 ∧ off % 4 = 0) →
      step { s with agenda := .host (.read (u.info.base + off) n) :: rest } = .fault (.busError (u.info.base + off) n) ∧
      step { s with agenda := .host (.write (u.info.base + off) n v) :: rest } =
        .fault (.busError (u.info.base + off) n))

/-- An access in no unit's window is a BusError too (92_eei_decisions.md D2 "any other access"; DEDUCED, log 9). -/
def Obligations.AccessOutsideEveryWindowIsABusError : Prop :=
  ∀ (s : State) (a n : Nat) (v : Word) (rest : List Event),
    (∀ u ∈ s.units, a < u.info.base ∨ u.info.base + 0x200 ≤ a) →
    step { s with agenda := .host (.read a n) :: rest } = .fault (.busError a n) ∧
    step { s with agenda := .host (.write a n v) :: rest } = .fault (.busError a n)

/-- What a read of each register that is one field returns (10_state.md R40, 20_memory.md R62); CMD and reserved offsets
read 0, and bit `i` of ENABLED is channel `i`'s enable bit (R22). -/
def Obligations.FieldRegistersReadTheirFields : Prop :=
  ∀ (s : State) (k : Nat) (u : PwmUnit), s.Inv → s.units[k]? = some u →
    (s.ReadsAs k 0x000 0 ∧ s.ReadsAs k 0x004 u.arg ∧ s.ReadsAs k 0x010 (BitVec.ofNat 32 u.period) ∧
      s.ReadsAs k 0x014 u.cfgFreq ∧ s.ReadsAs k 0x018 u.cfgPeriod ∧
      s.ReadsAs k 0x01C (if u.cfgPcb then 1 else 0) ∧ s.ReadsAs k 0x020 u.cfgRaw) ∧
    (s.ReadsAs k 0x024 (BitVec.ofNat 32 u.psc) ∧ s.ReadsAs k 0x028 (BitVec.ofNat 32 u.arr) ∧
      s.ReadsAs k 0x02C (BitVec.ofNat 32 u.arrSh) ∧ s.ReadsAs k 0x030 (BitVec.ofNat 32 u.cnt) ∧
      s.ReadsAs k 0x03C u.rawAct ∧ s.ReadsAs k 0x044 u.actFreq ∧ s.ReadsAs k 0x048 (if u.actPcb then 1 else 0)) ∧
    (∃ w, s.ReadsAs k 0x00C w ∧ (∀ (i : Nat) (c : Channel), u.chans[i]? = some c → bitAt w i = c.enabled) ∧
      ∀ i, s.params.channels ≤ i → bitAt w i = false) ∧
    (∀ (i : Nat) (c : Channel), u.chans[i]? = some c →
      s.ReadsAs k (0x100 + 0x10 * i + 0x4) (BitVec.ofNat 32 c.ccr) ∧
      s.ReadsAs k (0x100 + 0x10 * i + 0x8) (BitVec.ofNat 32 c.ccrSh)) ∧
    (∀ off, off % 4 = 0 → 0x04C ≤ off → off < 0x100 → s.ReadsAs k off 0) ∧
    (∀ off, off % 4 = 0 → 0x100 + 0x10 * s.params.channels ≤ off → off < 0x200 → s.ReadsAs k off 0)

/-- 10_state.md R41: the fields of STATUS, every other bit 0, and its reset value. The numbers are those of 10_state.md R21
(STATE: 0 Uninitialized, 1 Stopped, 2 Ready, 3 Active) and R27 (ERR: 0 OK, 1 CONFIG, 2 INVCH, 3 INVSTATE, 4 ILLEGAL). -/
def Obligations.StatusReadsItsFields : Prop :=
  (∀ (s : State) (k : Nat) (u : PwmUnit), s.Inv → s.units[k]? = some u →
    ∃ w, s.ReadsAs k 0x008 w ∧
      (bitField w 1 0 = match u.state with
        | .uninitialized => 0
        | .stopped => 1
        | .ready => 2
        | .active => 3) ∧
      bitField w 3 2 = 0 ∧
      (bitField w 7 4 = match u.err with
        | .ok => 0
        | .config => 1
        | .invch => 2
        | .invstate => 3
        | .illegal => 4) ∧
      bitAt w 8 = u.cfgv ∧ bitAt w 9 = u.clken ∧ bitAt w 10 = u.cen ∧ bitAt w 11 = u.ie ∧ bitField w 31 12 = 0) ∧
  (∀ (p : Params) (us : List UnitInfo) (k : Nat), p.Valid → Config.UnitsValid p us →
    (State.resetWith p us).ReadsAs k 0x008 0x00000000)

/-- 10_state.md R42: the fields of FLAGS, every other bit 0, and its reset value; a read does not clear it. -/
def Obligations.FlagsReadsItsFields : Prop :=
  (∀ (s : State) (k : Nat) (u : PwmUnit), s.Inv → s.units[k]? = some u →
    ∃ w, s.ReadsAs k 0x034 w ∧
      (∀ (i : Nat) (c : Channel), u.chans[i]? = some c → bitAt w i = c.ccif) ∧
      (∀ i, s.params.channels ≤ i → i < 16 → bitAt w i = false) ∧
      bitAt w 16 = u.uif ∧ bitAt w 17 = u.ovr ∧ bitField w 31 18 = 0) ∧
  (∀ (p : Params) (us : List UnitInfo) (k : Nat), p.Valid → Config.UnitsValid p us →
    (State.resetWith p us).ReadsAs k 0x034 0x00000000)

/-- 10_state.md R44: UNIT_INFO and UNIT_INFO2 read the unit's constants. -/
def Obligations.UnitInfoReadsTheConstants : Prop :=
  ∀ (s : State) (k : Nat) (u : PwmUnit), s.Inv → s.units[k]? = some u →
    (∃ w, s.ReadsAs k 0x038 w ∧ bitField w 7 0 = u.info.id.toNat ∧ bitField w 15 8 = s.params.channels ∧
      bitField w 23 16 = s.params.counterWidth ∧ bitField w 31 24 = u.info.prio.toNat) ∧
    (∃ w, s.ReadsAs k 0x040 w ∧ bitField w 7 0 = s.params.pscWidth ∧ bitField w 31 8 = 0)

/-- 10_state.md R45: the fields of CH_STAT(i) and its reset value. The numbers of ACT_MODE are those of 10_state.md R43
(0 Disabled, 1 ActiveHigh, 2 ActiveLow, 3 reserved). -/
def Obligations.ChannelStatusReadsItsFields : Prop :=
  (∀ (s : State) (k : Nat) (u : PwmUnit) (i : Nat) (c : Channel), s.Inv → s.units[k]? = some u → u.chans[i]? = some c →
    ∃ w, s.ReadsAs k (0x100 + 0x10 * i + 0xC) w ∧
      bitAt w 0 = c.oe ∧ bitAt w 1 = c.pol ∧ bitAt w 2 = c.oeSh ∧ bitAt w 3 = c.polSh ∧
      (bitField w 5 4 = match c.actMode with
        | .disabled => 0
        | .activeHigh => 1
        | .activeLow => 2
        | .reserved => 3) ∧
      bitAt w 6 = c.actCcb ∧ bitField w 31 7 = 0) ∧
  (∀ (p : Params) (us : List UnitInfo) (k i : Nat), p.Valid → Config.UnitsValid p us → i < p.channels →
    (State.resetWith p us).ReadsAs k (0x100 + 0x10 * i + 0xC) 0)

/-- A write of CH_CFG(i) keeps bits [2:0] of what was written, which read back with every other bit 0 (10_state.md R43,
95_test_vectors.md A-8); bits [1:0] stage the mode of that number (0 Disabled, 1 ActiveHigh, 2 ActiveLow, 3 reserved) and
bit 2 the callback bit. The write changes no other channel and nothing outside that register. -/
def Obligations.ChannelConfigKeepsItsThreeBits : Prop :=
  ∀ (s : State) (k : Nat) (u : PwmUnit) (i : Nat) (c : Channel) (v : Word) (rest : List Event), s.Inv →
    s.units[k]? = some u → u.chans[i]? = some c →
    ∃ c' : Channel,
      step { s with agenda := .host (.write (u.info.base + (0x100 + 0x10 * i)) 4 v) :: rest } =
        .next { s with agenda := rest, units := s.units.set k { u with chans := u.chans.set i c' } } ∧
      { c' with cfgMode := c.cfgMode, cfgCcb := c.cfgCcb } = c ∧
      (bitField v 1 0 = match c'.cfgMode with
        | .disabled => 0
        | .activeHigh => 1
        | .activeLow => 2
        | .reserved => 3) ∧
      c'.cfgCcb = bitAt v 2 ∧
      State.ReadsAs { s with units := s.units.set k { u with chans := u.chans.set i c' } } k (0x100 + 0x10 * i) (v &&& 7)

/-- 20_memory.md R63 away from CMD and CH_CFG: ARG and the staging registers store what is written, in every STATE; every
other offset ignores the write. -/
def Obligations.RegisterWritesStoreOrAreIgnored : Prop :=
  ∀ (s : State) (k : Nat) (v : Word), s.Inv →
    (s.WritesAs k 0x004 v (fun u => { u with arg := v }) ∧
      s.WritesAs k 0x014 v (fun u => { u with cfgFreq := v }) ∧
      s.WritesAs k 0x018 v (fun u => { u with cfgPeriod := v }) ∧
      s.WritesAs k 0x01C v (fun u => { u with cfgPcb := bitAt v 0 }) ∧
      s.WritesAs k 0x020 v (fun u => { u with cfgRaw := v })) ∧
    (∀ off, off % 4 = 0 → off < 0x200 → off ∉ [0x000, 0x004, 0x014, 0x018, 0x01C, 0x020] →
      ¬ (0x100 ≤ off ∧ off % 0x10 = 0 ∧ off < 0x100 + 0x10 * s.params.channels) →
      s.WritesAs k off v (fun u => u))

/-! ## Lifecycle commands -/

/-- 41_lifecycle.md R120: INIT faults with HCTX = 1, faults outside Uninitialized, and otherwise moves STATE to Stopped
with ERR = OK and changes nothing else; after reset it gives STATUS = 0x00000001. -/
def Obligations.InitMovesUninitializedToStopped : Prop :=
  (∀ (s : State) (u : PwmUnit), s.units[s.sel]? = some u →
    exec (.init true) s = .fault (.reentrantLifecycle .init) ∧
    (u.state ≠ .uninitialized → exec (.init false) s = .fault .doubleInit) ∧
    (u.state = .uninitialized →
      exec (.init false) s = .next (s.putUnit { u with state := .stopped, err := .ok }))) ∧
  (∀ (p : Params) (us : List UnitInfo), us ≠ [] →
    ∃ t u', exec (.init false) (State.resetWith p us) = .next t ∧ t.units[0]? = some u' ∧ u'.statusWord = 0x00000001)

/-- 41_lifecycle.md R121. START with HCTX = 1 faults. From Uninitialized it reports INVSTATE; elsewhere it reports CONFIG
for a staged mode 3 or values that cannot be mapped; a rejected START changes nothing but ERR. An accepted one programs the
unit as stated: every field is named, and those not listed keep their values. -/
def Obligations.StartProgramsTheUnit : Prop :=
  ∀ (s : State) (u : PwmUnit), s.units[s.sel]? = some u →
    exec (.start true) s = .fault (.reentrantLifecycle .start) ∧
    (u.state = .uninitialized → exec (.start false) s = .next (s.putUnit { u with err := .invstate })) ∧
    (u.state ≠ .uninitialized →
      (∃ c ∈ u.chans, c.cfgMode = .reserved) ∨ ¬ Mappable s.params u.cfgFreq.toNat u.cfgPeriod.toNat →
      exec (.start false) s = .next (s.putUnit { u with err := .config })) ∧
    (u.state ≠ .uninitialized → (∀ c ∈ u.chans, c.cfgMode ≠ .reserved) →
      Mappable s.params u.cfgFreq.toNat u.cfgPeriod.toNat →
      exec (.start false) s = .next (s.putUnit
        { u with
          state := .ready, err := .ok
          cfgv := true, actFreq := u.cfgFreq, actPcb := u.cfgPcb, rawAct := u.cfgRaw, period := u.cfgPeriod.toNat
          psc := s.params.inputClockHz / u.cfgFreq.toNat - 1
          arr := u.cfgPeriod.toNat - 1, arrSh := u.cfgPeriod.toNat - 1
          cnt := 0, pscCnt := 0, clken := true, ie := true, cen := true, uif := false, ovr := false
          chans := u.chans.map fun c =>
            { cfgMode := c.cfgMode, cfgCcb := c.cfgCcb, actMode := c.cfgMode, actCcb := c.cfgCcb
              enabled := false, ccif := false, ccr := 0, ccrSh := 0
              oe := c.cfgMode.drives, oeSh := c.cfgMode.drives
              pol := c.cfgMode.activeIsLow, polSh := c.cfgMode.activeIsLow } }))

/-- 41_lifecycle.md R122. STOP with HCTX = 1 faults, and from Uninitialized it reports INVSTATE. Elsewhere every timer, latch
and flag field becomes 0, STATE Stopped, ERR OK; the staging registers, ARG and NOTIFY are unchanged; no CLK and no DISPATCH
step is then enabled and every pin is `Z`. From Stopped it is a no-op but for ERR, and two in a row equal one. -/
def Obligations.StopClearsTheUnit : Prop :=
  (∀ (s : State) (u : PwmUnit), s.units[s.sel]? = some u →
    exec (.stop true) s = .fault (.reentrantLifecycle .stop) ∧
    (u.state = .uninitialized → exec (.stop false) s = .next (s.putUnit { u with err := .invstate })) ∧
    (u.state ≠ .uninitialized → ∃ u', exec (.stop false) s = .next (s.putUnit u') ∧
      u'.state = .stopped ∧ u'.err = .ok ∧ u'.Quiet ∧ u'.info = u.info ∧ u'.arg = u.arg ∧ u'.notify = u.notify ∧
      u'.cfgFreq = u.cfgFreq ∧ u'.cfgPeriod = u.cfgPeriod ∧ u'.cfgPcb = u.cfgPcb ∧ u'.cfgRaw = u.cfgRaw ∧
      u'.chans.map (fun c => (c.cfgMode, c.cfgCcb)) = u.chans.map (fun c => (c.cfgMode, c.cfgCcb)) ∧
      u'.clkEnabled = false ∧ u'.dispatchEnabled = false ∧ (∀ i, u'.pin i = .z) ∧
      exec (.stop false) (s.putUnit u') = .next (s.putUnit u'))) ∧
  (∀ (s : State) (u : PwmUnit), s.Inv → s.units[s.sel]? = some u → u.state = .stopped →
    exec (.stop false) s = .next (s.putUnit { u with err := .ok }))

/-- Whatever happened since, STOP brings a unit back to the fields it had when it was last Stopped, but for ERR, the
staging registers, ARG and NOTIFY (41_lifecycle.md, the note on START followed by STOP). -/
def Obligations.StopRestoresTheStoppedUnit : Prop :=
  ∀ (s₀ s t : State) (k : Nat) (u₀ u u' : PwmUnit), s₀.Inv → s₀.units[k]? = some u₀ → u₀.state = .stopped →
    s.Inv → s.params = s₀.params → s.sel = k → s.units[k]? = some u → u.info = u₀.info → u.state ≠ .uninitialized →
    exec (.stop false) s = .next t → t.units[k]? = some u' →
    u'.withoutHostFields = u₀.withoutHostFields

/-! ## Period and channel commands -/

/-- 42_channel_ops.md R140. CHPER reports INVSTATE in Uninitialized and Stopped. In Ready and Active it reports CONFIG where
the new period cannot be mapped at the bound frequency; else ARR_SH and PERIOD change, ERR is OK, and nothing else changes.
With the invariant, the periods it accepts are exactly `1..MAX_COUNT`, and the prescaler computed equals PSC. -/
def Obligations.ChperWritesTheShadowReload : Prop :=
  (∀ (s : State) (u : PwmUnit) (h : Bool), s.units[s.sel]? = some u →
    (u.state = .uninitialized ∨ u.state = .stopped →
      exec (.chper h) s = .next (s.putUnit { u with err := .invstate })) ∧
    (u.state = .ready ∨ u.state = .active →
      (¬ Mappable s.params u.actFreq.toNat u.arg.toNat →
        exec (.chper h) s = .next (s.putUnit { u with err := .config })) ∧
      (Mappable s.params u.actFreq.toNat u.arg.toNat →
        exec (.chper h) s =
          .next (s.putUnit { u with arrSh := u.arg.toNat - 1, period := u.arg.toNat, err := .ok })))) ∧
  (∀ (s : State) (u : PwmUnit), s.Inv → s.units[s.sel]? = some u → u.state = .ready ∨ u.state = .active →
    (Mappable s.params u.actFreq.toNat u.arg.toNat ↔ 1 ≤ u.arg.toNat ∧ u.arg.toNat ≤ s.params.maxCount) ∧
    (Mappable s.params u.actFreq.toNat u.arg.toNat →
      computeTimebase s.params u.actFreq.toNat u.arg.toNat = some { prescaler := u.psc, reload := u.arg.toNat - 1 }))

/-- 42_channel_ops.md R141. ENCH reports INVSTATE in Uninitialized and Stopped and INVCH for a channel of CHANNELS or more.
Else the channel's shadow compare becomes `min(ARG, PERIOD)`, its shadow polarity that of the latched mode, its ENABLED bit
1, STATE is Active, ERR OK; no other channel and no other field changes. -/
def Obligations.EnchProgramsTheChannelShadows : Prop :=
  ∀ (s : State) (u : PwmUnit) (h : Bool) (ch : Nat), s.units[s.sel]? = some u →
    (u.state = .uninitialized ∨ u.state = .stopped →
      exec (.ench h ch) s = .next (s.putUnit { u with err := .invstate })) ∧
    (u.state = .ready ∨ u.state = .active →
      (s.params.channels ≤ ch → exec (.ench h ch) s = .next (s.putUnit { u with err := .invch })) ∧
      (ch < s.params.channels → ∀ c : Channel, u.chans[ch]? = some c →
        exec (.ench h ch) s = .next (s.putUnit
          { u with
            state := .active, err := .ok
            chans := u.chans.set ch
              { c with ccrSh := min u.arg.toNat u.period, oeSh := c.actMode.drives
                       polSh := c.actMode.activeIsLow, enabled := true } })))

/-- 42_channel_ops.md R142. DISCH reports INVSTATE in Uninitialized and Stopped and INVCH for a channel of CHANNELS or more.
Else the channel's shadow polarity bits and its ENABLED bit become 0, ERR OK; STATE, the shadow compare, the latch and every
other field keep their values. -/
def Obligations.DischClearsTheChannelPolarity : Prop :=
  ∀ (s : State) (u : PwmUnit) (h : Bool) (ch : Nat), s.units[s.sel]? = some u →
    (u.state = .uninitialized ∨ u.state = .stopped →
      exec (.disch h ch) s = .next (s.putUnit { u with err := .invstate })) ∧
    (u.state = .ready ∨ u.state = .active →
      (s.params.channels ≤ ch → exec (.disch h ch) s = .next (s.putUnit { u with err := .invch })) ∧
      (ch < s.params.channels → ∀ c : Channel, u.chans[ch]? = some c →
        exec (.disch h ch) s = .next (s.putUnit
          { u with err := .ok, chans := u.chans.set ch { c with oeSh := false, polSh := false, enabled := false } })))

/-- In a state that meets the invariant, every channel below CHANNELS exists and no other: ENCH and DISCH of a channel of a
running unit always complete, with OK or INVCH (42_channel_ops.md R141, R142). -/
def Obligations.ChannelCommandsAlwaysComplete : Prop :=
  ∀ (s : State) (u : PwmUnit) (h : Bool) (ch : Nat), s.Inv → s.units[s.sel]? = some u →
    ((∃ c, u.chans[ch]? = some c) ↔ ch < s.params.channels) ∧
    (u.state = .ready ∨ u.state = .active →
      ∃ u₁ u₂, exec (.ench h ch) s = .next (s.putUnit u₁) ∧ exec (.disch h ch) s = .next (s.putUnit u₂) ∧
        u₁.err = (if ch < s.params.channels then .ok else .invch) ∧ u₂.err = u₁.err)

/-- HCTX changes no result of CHPER, ENCH or DISCH; for INIT, START and STOP it selects the fault, in every STATE
(30_encoding.md R81, 60_exceptions.md R183). -/
def Obligations.HandlerContextOnlyMattersToLifecycle : Prop :=
  ∀ (s : State) (u : PwmUnit) (ch : Nat), s.units[s.sel]? = some u →
    exec (.chper true) s = exec (.chper false) s ∧ exec (.ench true ch) s = exec (.ench false ch) s ∧
    exec (.disch true ch) s = exec (.disch false ch) s ∧
    exec (.init true) s = .fault (.reentrantLifecycle .init) ∧
    exec (.start true) s = .fault (.reentrantLifecycle .start) ∧
    exec (.stop true) s = .fault (.reentrantLifecycle .stop)

/-- CHPER changes no ENABLED bit, polarity bit, callback bit or compare register; ENCH and DISCH change none of PERIOD, ARR,
ARR_SH and PSC (42_channel_ops.md section on CHPER, ENCH and DISCH), whether they succeed or not. -/
def Obligations.PeriodAndChannelCommandsKeepApart : Prop :=
  ∀ (s t : State) (u u' : PwmUnit) (h : Bool) (ch : Nat), s.units[s.sel]? = some u → t.units[s.sel]? = some u' →
    (exec (.chper h) s = .next t → u'.chans = u.chans ∧ u'.actPcb = u.actPcb ∧ u'.cfgPcb = u.cfgPcb) ∧
    (exec (.ench h ch) s = .next t ∨ exec (.disch h ch) s = .next t →
      u'.period = u.period ∧ u'.arr = u.arr ∧ u'.arrSh = u.arrSh ∧ u'.psc = u.psc ∧
      u'.chans.map (fun c => (c.ccr, c.oe, c.pol, c.actMode, c.actCcb, c.ccif)) =
        u.chans.map (fun c => (c.ccr, c.oe, c.pol, c.actMode, c.actCcb, c.ccif)))

/-! ## Whole commands -/

/-- 60_exceptions.md R185: of the outcomes that could apply to a command word exactly one is reported, the first in the
order ILLEGAL, ReentrantLifecycle, DoubleInit, INVSTATE, INVCH, CONFIG; with BusError the model faults are three. -/
def Obligations.CommandReportsTheFirstOutcomeInOrder : Prop :=
  (∀ (s : State) (u : PwmUnit) (v : Word), s.units[s.sel]? = some u →
    match expectedReport s.params u v with
    | .fault f => executeCommand v s = .fault f
    | .code e => ∃ u', executeCommand v s = .next (s.putUnit u') ∧ u'.err = e) ∧
  (∀ f : Fault, (∃ op, f = .reentrantLifecycle op) ∨ f = .doubleInit ∨ ∃ a n, f = .busError a n)

/-- 60_exceptions.md R181: a command word that ends in an error writes ERR and changes no other field of the unit; one that
completes without an error writes ERR = 0. -/
def Obligations.ErrorsChangeOnlyErr : Prop :=
  ∀ (s t : State) (u : PwmUnit) (v : Word), s.units[s.sel]? = some u → executeCommand v s = .next t →
    ∃ e : ErrCode, (e ≠ .ok → t = s.putUnit { u with err := e }) ∧
      (∃ u', t = s.putUnit u' ∧ u'.err = e) ∧
      (expectedReport s.params u v = .code e)

/-- What no command changes (frame of INIT, START, STOP, CHPER, ENCH, DISCH): the other units, the parameters, the agenda,
the selection and the last read word; and of its own unit the staging registers, ARG, NOTIFY and the constants. -/
def Obligations.CommandsFrame : Prop :=
  ∀ (s t : State) (i : Instr) (u : PwmUnit), s.units[s.sel]? = some u → exec i s = .next t →
    t = { s with units := t.units } ∧ t.units.length = s.units.length ∧
    (∀ k, k ≠ s.sel → t.units[k]? = s.units[k]?) ∧
    ∃ u', t.units[s.sel]? = some u' ∧ u'.info = u.info ∧ u'.arg = u.arg ∧ u'.notify = u.notify ∧
      u'.cfgFreq = u.cfgFreq ∧ u'.cfgPeriod = u.cfgPeriod ∧ u'.cfgPcb = u.cfgPcb ∧ u'.cfgRaw = u.cfgRaw ∧
      u'.chans.map (fun c => (c.cfgMode, c.cfgCcb)) = u.chans.map (fun c => (c.cfgMode, c.cfgCcb))

/-- The driver state transitions (41_lifecycle.md, the table of commands and states): a command that reports OK leads to
the table's STATE, one that reports an error keeps STATE. -/
def Obligations.CommandsMoveStateByTheTable : Prop :=
  ∀ (s t : State) (i : Instr) (u u' : PwmUnit), s.units[s.sel]? = some u → exec i s = .next t →
    t.units[s.sel]? = some u' →
    u'.state = if u'.err = .ok then successState i u.state else u.state

/-- No Counter step, no Dispatcher step and no host access but a command changes STATE, and only a command of the unit
writes its ERR (10_state.md R21, R27). -/
def Obligations.OnlyCommandsChangeStateAndErr : Prop :=
  ∀ (s t : State) (k : Nat) (u u' : PwmUnit), step s = .next t → s.units[k]? = some u → t.units[k]? = some u' →
    (u'.state ≠ u.state → ∃ i, s.runs k i) ∧ (u'.err ≠ u.err → ∃ v, s.writesCmd k v)

/-! ## The timer register mapping -/

/-- `compute_timebase` (40_mapping.md R101): it succeeds with `(prescaler, reload)` exactly when the divisor
`prescaler + 1` divides the input clock into the frequency, the prescaler fits, and the period is `reload + 1` in
`1..MAX_COUNT`. -/
def Obligations.ComputeTimebaseIsTheExactDivision : Prop :=
  ∀ (p : Params) (frequency period psc reload : Nat), 1 ≤ p.inputClockHz →
    (computeTimebase p frequency period = some { prescaler := psc, reload := reload } ↔
      (psc + 1) * frequency = p.inputClockHz ∧ psc ≤ p.pscMax ∧ reload + 1 = period ∧ period ≤ p.maxCount)

/-- `compute_channel_register` (40_mapping.md R103): saturation to the period and the polarity bits of each mode. -/
def Obligations.ComputeChannelRegisterSaturates : Prop :=
  ∀ (mode : ChannelMode) (width period : Nat),
    (computeChannelRegister mode width period).compare ≤ period ∧
    (width ≤ period → (computeChannelRegister mode width period).compare = width) ∧
    (period < width → (computeChannelRegister mode width period).compare = period) ∧
    (computeChannelRegister mode width period).oe = mode.drives ∧
    (computeChannelRegister mode width period).pol = mode.activeIsLow ∧
    (ChannelMode.drives .activeHigh = true ∧ ChannelMode.activeIsLow .activeHigh = false) ∧
    (ChannelMode.drives .activeLow = true ∧ ChannelMode.activeIsLow .activeLow = true) ∧
    (ChannelMode.drives .disabled = false ∧ ChannelMode.activeIsLow .disabled = false) ∧
    computeChannelRegister .activeHigh 500 1000 = { compare := 500, oe := true, pol := false } ∧
    computeChannelRegister .activeLow 1500 1000 = { compare := 1000, oe := true, pol := true }

/-! ## The Counter agent -/

/-- The CLK step where it is enabled (43_counter_output.md R161): below PSC it only counts the prescaler; at PSC it restarts
the prescaler and ticks. It touches no other unit. -/
def Obligations.ClkDividesTheInputClock : Prop :=
  ∀ (s : State) (k : Nat) (u : PwmUnit) (rest : List Event), s.agenda = .clk k :: rest → s.units[k]? = some u →
    u.clken = true → u.cen = true →
    ∃ u', step s = .next { s with agenda := rest, units := s.units.set k u' } ∧
      (u.pscCnt < u.psc → u' = { u with pscCnt := u.pscCnt + 1 }) ∧
      (u.psc ≤ u.pscCnt → u' = { u with pscCnt := 0 }.tick)

/-- An event of an agent whose step is not enabled changes no unit: a CLK with CLKEN or CEN 0 (43_counter_output.md R160), a
DISPATCH with IE 0 or no flag pending (60_exceptions.md R187). That such an event may be in a schedule at all, and is then
consumed, is the model's choice (DESIGN CHOICE, log 5). -/
def Obligations.EventOfADisabledAgentChangesNothing : Prop :=
  ∀ (s : State) (k : Nat) (u : PwmUnit) (rest : List Event), s.units[k]? = some u →
    (s.agenda = .clk k :: rest → u.clken = false ∨ u.cen = false → step s = .next { s with agenda := rest }) ∧
    (s.agenda = .dispatch k :: rest →
      u.ie = false ∨ (u.uif = false ∧ u.ovr = false ∧ ∀ c ∈ u.chans, c.ccif = false) →
      step s = .next { s with agenda := rest })

/-- TICK (43_counter_output.md R162). Where CNT is not ARR, CNT counts up, and each enabled channel whose active compare
equals the new CNT has its flag raised, or OVR where the flag was pending. Where CNT is ARR the tick wraps: CNT returns to
0, ARR and every channel's CCR, OE and POL take their shadows, the period-reset event is raised, and so is the compare event
of each enabled channel whose new compare is 0. Nothing else changes. -/
def Obligations.TickCountsOrWraps : Prop :=
  ∀ u : PwmUnit,
    (u.cnt ≠ u.arr →
      u.tick = { u with
        cnt := u.cnt + 1
        ovr := u.ovr || u.chans.any fun c => c.enabled && c.ccif && u.cnt + 1 == c.ccr
        chans := u.chans.map fun c => { c with ccif := c.ccif || (c.enabled && u.cnt + 1 == c.ccr) } }) ∧
    (u.cnt = u.arr →
      u.tick = { u with
        cnt := 0
        arr := u.arrSh
        uif := true
        ovr := u.ovr || u.uif || u.chans.any fun c => c.enabled && c.ccif && 0 == c.ccrSh
        chans := u.chans.map fun c =>
          { c with ccr := c.ccrSh, oe := c.oeSh, pol := c.polSh, ccif := c.ccif || (c.enabled && 0 == c.ccrSh) } })

/-- 43_counter_output.md R163: raising a flag sets it, or sets OVR when it is already pending; and events are raised only
by a tick: a step that sets any of UIF, OVR and CCIF[i] of a unit is a CLK step of that unit that ticks. -/
def Obligations.EventsAreRaisedOnlyByTicks : Prop :=
  (∀ flag ovr : Bool, raiseFlag flag ovr = (true, if flag then true else ovr)) ∧
  (∀ (s t : State) (k : Nat) (u u' : PwmUnit), step s = .next t → s.units[k]? = some u → t.units[k]? = some u' →
    (u.uif = false ∧ u'.uif = true) ∨ (u.ovr = false ∧ u'.ovr = true) ∨
      (∃ (i : Nat) (c c' : Channel), u.chans[i]? = some c ∧ u'.chans[i]? = some c' ∧ c.ccif = false ∧ c'.ccif = true) →
    s.nextEvent = .clk k ∧ u.ticksNow)

/-- 43_counter_output.md R164: OVR is cleared only by DISPATCH, START and STOP; a second overrun while it is set changes
nothing further, and the flag that overran stays 1. -/
def Obligations.OverrunIsSticky : Prop :=
  (∀ (s t : State) (k : Nat) (u u' : PwmUnit), step s = .next t → s.units[k]? = some u → t.units[k]? = some u' →
    u.ovr = true → u'.ovr = false → s.nextEvent = .dispatch k ∨ s.restarts k) ∧
  raiseFlag true true = (true, true) ∧ raiseFlag true false = (true, true)

/-- 43_counter_output.md R166: the level of a pin, in every state. -/
def Obligations.PinFollowsTheCompareAndPolarity : Prop :=
  ∀ (u : PwmUnit) (i : Nat) (c : Channel), u.chans[i]? = some c →
    (u.clken = false ∨ c.oe = false → u.pin i = .z) ∧
    (u.clken = true → c.oe = true → c.pol = false →
      (u.cnt < c.ccr → u.pin i = .high) ∧ (c.ccr ≤ u.cnt → u.pin i = .low)) ∧
    (u.clken = true → c.oe = true → c.pol = true →
      (u.cnt < c.ccr → u.pin i = .low) ∧ (c.ccr ≤ u.cnt → u.pin i = .high))

/-- Over the `ARR + 1` values CNT takes in one period every channel is active for `min(CCR[i], ARR + 1)` of them; a driven
ActiveHigh pin is high for as many and low for the others, a driven ActiveLow pin low for as many and high for the others
(43_counter_output.md, the note on duty after the pin function). -/
def Obligations.DutyIsTheCompareValue : Prop :=
  ∀ (u : PwmUnit) (i : Nat) (c : Channel), u.chans[i]? = some c →
    (List.range (u.arr + 1)).countP (fun n => c.activeAt n) = min c.ccr (u.arr + 1) ∧
    (u.clken = true → c.oe = true → c.pol = false →
      u.ticksAt i .high = min c.ccr (u.arr + 1) ∧ u.ticksAt i .low = u.arr + 1 - min c.ccr (u.arr + 1)) ∧
    (u.clken = true → c.oe = true → c.pol = true →
      u.ticksAt i .low = min c.ccr (u.arr + 1) ∧ u.ticksAt i .high = u.arr + 1 - min c.ccr (u.arr + 1))

/-- `PSC + 1` CLK steps of a unit that has just started make one tick: from `PSC_CNT = 0`, the first PSC of them only
count the prescaler (43_counter_output.md R161). -/
def Obligations.PrescalerMakesOneTickOfPscPlusOneCycles : Prop :=
  ∀ (s : State) (k : Nat) (u : PwmUnit) (rest : List Event), s.units[k]? = some u → u.clken = true → u.cen = true →
    u.pscCnt = 0 → s.agenda = List.replicate (u.psc + 1) (.clk k) ++ rest →
    core.run (u.psc + 1) s = .next { s with agenda := rest, units := s.units.set k u.tick }

/-- Glitch-free (43_counter_output.md, the last note of its file): a step changes ARR or an active CCR, OE or POL of a unit
only if it is that unit's wrap, or a START or STOP command of that unit. -/
def Obligations.WaveformChangesOnlyAtAWrap : Prop :=
  ∀ (s t : State) (k : Nat) (u u' : PwmUnit), step s = .next t → s.units[k]? = some u → t.units[k]? = some u' →
    u'.waveform ≠ u.waveform → (s.nextEvent = .clk k ∧ u.wrapsNow) ∨ s.restarts k

/-! ## The Dispatcher agent -/

/-- The DISPATCH step where it is enabled (60_exceptions.md R187): it clears every event flag and appends, in ascending
channel order and then PERIOD and FAULT, one record per flag whose callback is configured; nothing else changes. -/
def Obligations.DispatchNotifiesAndClears : Prop :=
  ∀ (s : State) (k : Nat) (u : PwmUnit) (rest : List Event), s.agenda = .dispatch k :: rest → s.units[k]? = some u →
    u.ie = true → (u.uif = true ∨ u.ovr = true ∨ ∃ c ∈ u.chans, c.ccif = true) →
    step s = .next { s with
      agenda := rest
      units := s.units.set k { u with
        uif := false, ovr := false, chans := u.chans.map fun c => { c with ccif := false }
        notify := u.notify ++
          ((u.chans.zipIdx.filter fun e => e.1.ccif && e.1.enabled && e.1.actCcb).map fun e =>
            { unitId := u.info.id, kind := .channel, ch := e.2 }) ++
          (if u.uif = true ∧ u.actPcb = true then [{ unitId := u.info.id, kind := .period, ch := 0 }] else []) ++
          (if u.ovr = true ∧ u.actPcb = true then [{ unitId := u.info.id, kind := .fault, ch := 0 }] else []) } }

/-- Which records an enabled DISPATCH step appends to NOTIFY, none of them twice (60_exceptions.md R188): channel `i`'s
exactly when its compare event is pending, the channel is enabled and its latched callback bit is 1, whatever its mode;
PERIOD exactly when the period-reset event is pending and ACT_PCB is 1. FAULT is appended exactly when OVR is pending and
ACT_PCB is 1, and ERR is not written (60_exceptions.md section 4, the FAULT notification). No other record is appended. -/
def Obligations.NotificationsAreGatedByCallbacks : Prop :=
  ∀ (s : State) (k : Nat) (u : PwmUnit) (rest : List Event), s.agenda = .dispatch k :: rest → s.units[k]? = some u →
    u.ie = true → (u.uif = true ∨ u.ovr = true ∨ ∃ c ∈ u.chans, c.ccif = true) →
    ∃ (u' : PwmUnit) (appended : List Notification),
      step s = .next { s with agenda := rest, units := s.units.set k u' } ∧
      u'.notify = u.notify ++ appended ∧ u'.err = u.err ∧ appended.Nodup ∧
      (∀ r ∈ appended, r.unitId = u.info.id ∧ (r.kind ≠ .channel → r.ch = 0)) ∧
      (∀ i : Nat, { unitId := u.info.id, kind := .channel, ch := i } ∈ appended ↔
        ∃ c, u.chans[i]? = some c ∧ c.ccif = true ∧ c.enabled = true ∧ c.actCcb = true) ∧
      ({ unitId := u.info.id, kind := .period, ch := 0 } ∈ appended ↔ u.uif = true ∧ u.actPcb = true) ∧
      ({ unitId := u.info.id, kind := .fault, ch := 0 } ∈ appended ↔ u.ovr = true ∧ u.actPcb = true)

/-- 10_state.md R38: NOTIFY is appended to only by DISPATCH, never shortened, and empty at reset. -/
def Obligations.NotifyOnlyGrowsAndOnlyByDispatch : Prop :=
  (∀ (s t : State) (k : Nat) (u u' : PwmUnit), step s = .next t → s.units[k]? = some u → t.units[k]? = some u' →
    u.notify <+: u'.notify ∧ (u'.notify ≠ u.notify → s.nextEvent = .dispatch k)) ∧
  (∀ (p : Params) (us : List UnitInfo), ∀ u ∈ (State.resetWith p us).units, u.notify = [])

/-- The notification as a word (60_exceptions.md R189): `[7:0]` ch, `[9:8]` kind, `[23:16]` UNIT_ID, other bits 0. -/
def Obligations.NotificationWordHasItsFields : Prop :=
  ∀ r : Notification, r.ch < 256 →
    bitField r.word 7 0 = r.ch ∧
    bitField r.word 9 8 = (match r.kind with | .channel => 0 | .period => 1 | .fault => 2) ∧
    bitField r.word 15 10 = 0 ∧ bitField r.word 23 16 = r.unitId.toNat ∧ bitField r.word 31 24 = 0

/-! ## The whole machine -/

/-- No step of one unit writes another unit's state (10_state.md R46): a unit changes only by its own CLK, its own DISPATCH
or a host write admitted to its own window; a read changes no unit (20_memory.md R62). -/
def Obligations.AUnitChangesOnlyByItsOwnSteps : Prop :=
  ∀ (s t : State) (k : Nat), step s = .next t → t.units[k]? ≠ s.units[k]? →
    s.nextEvent = .clk k ∨ s.nextEvent = .dispatch k ∨
      ∃ a n v off, s.nextEvent = .host (.write a n v) ∧ admitted s a n = some (k, off)

/-- No step of one unit reads another unit's state (10_state.md R46): two machines with the same parameters and units of
the same constants, that agree on the unit at `k`, take it to the same unit in a step of the same event. -/
def Obligations.UnitResultDependsOnlyOnTheUnit : Prop :=
  ∀ (s₁ s₂ t₁ t₂ : State) (k : Nat), s₁.params = s₂.params → s₁.units.map PwmUnit.info = s₂.units.map PwmUnit.info →
    s₁.units[k]? = s₂.units[k]? → s₁.nextEvent = s₂.nextEvent →
    step s₁ = .next t₁ → step s₂ = .next t₂ → t₁.units[k]? = t₂.units[k]?

/-- No step changes a parameter, the number of units, or a unit's UNIT_ID, UNIT_BASE and IRQ_PRIO (00_scope.md R5 and
10_state.md R44: constants). -/
def Obligations.ConstantsNeverChange : Prop :=
  ∀ (s t : State), step s = .next t → t.params = s.params ∧ t.units.map PwmUnit.info = s.units.map PwmUnit.info

/-- The only faults (60_exceptions.md R185, 20_memory.md R61): a step faults exactly when its event is an access that is
not admitted, a lifecycle command with HCTX = 1, or an INIT of a unit that is not Uninitialized. Every other step is
good. -/
def Obligations.StepFaultsExactlyAsTheRulesSay : Prop :=
  ∀ s : State, ¬ Good (step s) ↔
    (∃ a n, (s.nextEvent = .host (.read a n) ∨ ∃ v, s.nextEvent = .host (.write a n v)) ∧ admitted s a n = none) ∨
    (∃ k, s.runs k (.init true) ∨ s.runs k (.start true) ∨ s.runs k (.stop true)) ∨
    (∃ k u, s.runs k (.init false) ∧ s.units[k]? = some u ∧ u.state ≠ .uninitialized)

/-- No step is refused: "No rule of this spec produces a refusal" (00_scope.md R8). -/
def Obligations.NoStepIsRefused : Prop :=
  ∀ (s : State) (r : Refusal), step s ≠ .refused r

/-- The invariants of 10_state.md section 5 are kept by every step of every agent, whatever the schedule. -/
def Obligations.EveryStepKeepsTheInvariant : Prop :=
  ∀ s t : State, s.Inv → step s = .next t → t.Inv

/-- The machine after power-on reset meets the invariant, for all parameters and units in the ranges of 00_scope.md
R5. -/
def Obligations.ResetMeetsTheInvariant : Prop :=
  (∀ (p : Params) (us : List UnitInfo), p.Valid → Config.UnitsValid p us → (State.resetWith p us).Inv) ∧
  State.reset.Inv

/-- 10_state.md R49: after power-on reset every field is 0, STATE is Uninitialized, NOTIFY is empty, every pin is `Z`, and
the constant registers hold their parameter values. -/
def Obligations.ResetClearsEveryField : Prop :=
  ∀ (p : Params) (us : List UnitInfo), p.Valid → Config.UnitsValid p us →
    (State.resetWith p us).units.map PwmUnit.info = us ∧
    (∀ u ∈ (State.resetWith p us).units, u.Quiet ∧ u.state = .uninitialized ∧ u.err = .ok ∧ u.arg = 0 ∧
      u.cfgFreq = 0 ∧ u.cfgPeriod = 0 ∧ u.cfgPcb = false ∧ u.cfgRaw = 0 ∧ u.notify = [] ∧ (∀ i, u.pin i = .z) ∧
      u.chans.length = p.channels ∧ ∀ c ∈ u.chans, c.cfgMode = .disabled ∧ c.cfgCcb = false) ∧
    (∀ (k : Nat) (i : UnitInfo), us[k]? = some i →
      (State.resetWith p us).ReadsAs k 0x038
        (BitVec.ofNat 32 (i.id.toNat + 0x100 * p.channels + 0x10000 * p.counterWidth + 0x1000000 * i.prio.toNat)) ∧
      (State.resetWith p us).ReadsAs k 0x040 (BitVec.ofNat 32 p.pscWidth))

/-! ## Host programs -/

/-- The lines `chper p` and `ench c, w` (30_encoding.md R90) run, undisturbed, as a write of ARG and then the command with
that operand: two host steps, between which the agenda may place others. -/
def Obligations.OperandLinesRunAsArgThenCommand : Prop :=
  ∀ (s : State) (u : PwmUnit) (h : Bool) (c : Nat) (w : Word) (rest : List Event), s.Inv →
    s.units[s.sel]? = some u → c < 256 →
    (s.agenda = (Line.chper h w).expand s.sel u.info.base ++ rest →
      core.run 2 s = exec (.chper h) ({ s with agenda := rest }.putUnit { u with arg := w })) ∧
    (s.agenda = (Line.ench h c w).expand s.sel u.info.base ++ rest →
      core.run 2 s = exec (.ench h c) ({ s with agenda := rest }.putUnit { u with arg := w }))
end

