-- ==== Sys2Proof/Laws/State.lean ====
section
/-! SUPPORT. What each named update of the state leaves in each field, so that no later proof unfolds a record update. -/

namespace Sys2Proof.Machine

/-! ## The unit selected, and a unit by position -/

@[simp] theorem State.putUnit_params (s : State) (u : PwmUnit) : (s.putUnit u).params = s.params := rfl
@[simp] theorem State.putUnit_sel (s : State) (u : PwmUnit) : (s.putUnit u).sel = s.sel := rfl
@[simp] theorem State.putUnit_readData (s : State) (u : PwmUnit) : (s.putUnit u).readData = s.readData := rfl
@[simp] theorem State.putUnit_agenda (s : State) (u : PwmUnit) : (s.putUnit u).agenda = s.agenda := rfl
@[simp] theorem State.putUnit_slot (s : State) (u : PwmUnit) : (s.putUnit u).slot = s.slot := rfl
@[simp] theorem State.putUnit_units (s : State) (u : PwmUnit) : (s.putUnit u).units = s.units.set s.sel u := rfl

@[simp] theorem State.modifyUnit_params (s : State) (k : Nat) (f : PwmUnit → PwmUnit) :
    (s.modifyUnit k f).params = s.params := rfl
@[simp] theorem State.modifyUnit_sel (s : State) (k : Nat) (f : PwmUnit → PwmUnit) :
    (s.modifyUnit k f).sel = s.sel := rfl
@[simp] theorem State.modifyUnit_readData (s : State) (k : Nat) (f : PwmUnit → PwmUnit) :
    (s.modifyUnit k f).readData = s.readData := rfl
@[simp] theorem State.modifyUnit_agenda (s : State) (k : Nat) (f : PwmUnit → PwmUnit) :
    (s.modifyUnit k f).agenda = s.agenda := rfl
@[simp] theorem State.modifyUnit_slot (s : State) (k : Nat) (f : PwmUnit → PwmUnit) :
    (s.modifyUnit k f).slot = s.slot := rfl
@[simp] theorem State.modifyUnit_units (s : State) (k : Nat) (f : PwmUnit → PwmUnit) :
    (s.modifyUnit k f).units = s.units.modify k f := rfl

/-- Modifying the element of a list that is there sets it. -/
theorem modify_eq_set_of_get {α : Type} {l : List α} {k : Nat} {a : α} (f : α → α) (h : l[k]? = some a) :
    l.modify k f = l.set k (f a) := by
  apply List.ext_getElem?
  intro j
  obtain ⟨hk, rfl⟩ := List.getElem?_eq_some_iff.mp h
  rw [List.getElem?_modify, List.getElem?_set]
  split
  · next e => subst e; simp [hk]
  · simp

/-- Setting a list's element to what it is changes nothing. -/
theorem set_eq_self_of_get {α : Type} {l : List α} {k : Nat} {a : α} (h : l[k]? = some a) : l.set k a = l := by
  apply List.ext_getElem?
  intro j
  obtain ⟨hk, rfl⟩ := List.getElem?_eq_some_iff.mp h
  rw [List.getElem?_set]
  split
  · next e => subst e; simp [hk]
  · rfl

theorem State.modifyUnit_of_get {s : State} {k : Nat} {u : PwmUnit} (f : PwmUnit → PwmUnit)
    (h : s.units[k]? = some u) : s.modifyUnit k f = { s with units := s.units.set k (f u) } := by
  simp [State.modifyUnit, modify_eq_set_of_get f h]

theorem State.putUnit_get_self {s : State} {u : PwmUnit} (u' : PwmUnit) (h : s.units[s.sel]? = some u) :
    (s.putUnit u').units[s.sel]? = some u' := by
  obtain ⟨hk, -⟩ := List.getElem?_eq_some_iff.mp h
  simp [hk]

theorem State.putUnit_get_ne (s : State) (u : PwmUnit) {k : Nat} (h : k ≠ s.sel) :
    (s.putUnit u).units[k]? = s.units[k]? := by
  simp [List.getElem?_set_ne (Ne.symm h)]

theorem State.putUnit_same {s : State} {u : PwmUnit} (h : s.units[s.sel]? = some u) : s.putUnit u = s := by
  simp [State.putUnit, set_eq_self_of_get h]

theorem State.putUnit_putUnit (s : State) (u v : PwmUnit) : (s.putUnit u).putUnit v = s.putUnit v := by
  simp [State.putUnit]

/-! ## One channel of a unit -/

@[simp] theorem PwmUnit.modifyChannel_chans (u : PwmUnit) (i : Nat) (f : Channel → Channel) :
    (u.modifyChannel i f).chans = u.chans.modify i f := rfl
@[simp] theorem PwmUnit.modifyChannel_info (u : PwmUnit) (i : Nat) (f : Channel → Channel) :
    (u.modifyChannel i f).info = u.info := rfl
@[simp] theorem PwmUnit.modifyChannel_state (u : PwmUnit) (i : Nat) (f : Channel → Channel) :
    (u.modifyChannel i f).state = u.state := rfl
@[simp] theorem PwmUnit.modifyChannel_notify (u : PwmUnit) (i : Nat) (f : Channel → Channel) :
    (u.modifyChannel i f).notify = u.notify := rfl

theorem PwmUnit.modifyChannel_of_get {u : PwmUnit} {i : Nat} {c : Channel} (f : Channel → Channel)
    (h : u.chans[i]? = some c) : u.modifyChannel i f = { u with chans := u.chans.set i (f c) } := by
  simp [PwmUnit.modifyChannel, modify_eq_set_of_get f h]

/-- A fact about every channel that `f` keeps is kept where `f` is applied to one of them. -/
theorem forall_mem_modify {α : Type} {P : α → Prop} {f : α → α} {l : List α} (k : Nat) (hl : ∀ a ∈ l, P a)
    (hf : ∀ a ∈ l, P a → P (f a)) : ∀ a ∈ l.modify k f, P a := by
  intro a ha
  obtain ⟨j, hj⟩ := List.mem_iff_getElem?.mp ha
  rw [List.getElem?_modify] at hj
  cases hlj : l[j]? with
  | none => simp [hlj] at hj
  | some b =>
    have hb := List.mem_of_getElem? hlj
    rw [hlj] at hj
    split at hj
    · simp at hj; exact hj ▸ hf b hb (hl b hb)
    · simp at hj; exact hj ▸ hl b hb

/-- A fact about every unit that holds of the new one is kept where one unit is replaced. -/
theorem forall_mem_set {α : Type} {P : α → Prop} {l : List α} (k : Nat) {b : α} (hl : ∀ a ∈ l, P a) (hb : P b) :
    ∀ a ∈ l.set k b, P a := by
  intro a ha
  rcases List.mem_or_eq_of_mem_set ha with h | rfl
  · exact hl a h
  · exact hb

/-! ## `stop_effects` -/

@[simp] theorem PwmUnit.stopEffects_info (u : PwmUnit) : u.stopEffects.info = u.info := rfl
@[simp] theorem PwmUnit.stopEffects_state (u : PwmUnit) : u.stopEffects.state = u.state := rfl
@[simp] theorem PwmUnit.stopEffects_err (u : PwmUnit) : u.stopEffects.err = u.err := rfl
@[simp] theorem PwmUnit.stopEffects_arg (u : PwmUnit) : u.stopEffects.arg = u.arg := rfl
@[simp] theorem PwmUnit.stopEffects_notify (u : PwmUnit) : u.stopEffects.notify = u.notify := rfl
@[simp] theorem PwmUnit.stopEffects_cfgFreq (u : PwmUnit) : u.stopEffects.cfgFreq = u.cfgFreq := rfl
@[simp] theorem PwmUnit.stopEffects_cfgPeriod (u : PwmUnit) : u.stopEffects.cfgPeriod = u.cfgPeriod := rfl
@[simp] theorem PwmUnit.stopEffects_cfgPcb (u : PwmUnit) : u.stopEffects.cfgPcb = u.cfgPcb := rfl
@[simp] theorem PwmUnit.stopEffects_cfgRaw (u : PwmUnit) : u.stopEffects.cfgRaw = u.cfgRaw := rfl
@[simp] theorem PwmUnit.stopEffects_clken (u : PwmUnit) : u.stopEffects.clken = false := rfl
@[simp] theorem PwmUnit.stopEffects_cen (u : PwmUnit) : u.stopEffects.cen = false := rfl
@[simp] theorem PwmUnit.stopEffects_ie (u : PwmUnit) : u.stopEffects.ie = false := rfl
@[simp] theorem PwmUnit.stopEffects_chans (u : PwmUnit) :
    u.stopEffects.chans = u.chans.map Channel.stopEffects := rfl
@[simp] theorem Channel.stopEffects_cfgMode (c : Channel) : c.stopEffects.cfgMode = c.cfgMode := rfl
@[simp] theorem Channel.stopEffects_cfgCcb (c : Channel) : c.stopEffects.cfgCcb = c.cfgCcb := rfl

end Sys2Proof.Machine
end

