-- ==== Sys2Proof/Laws/Command.lean ====
section
/-! SUPPORT. What a command can do: acting on the selected unit, the timebase, and the cases of each command. -/

namespace Sys2Proof.Machine

open Host (Outcome)
open Config (Params)

/-- A command on the selected unit is that unit's command, put back. -/
theorem onSelected_of_get {s : State} {u : PwmUnit} (f : PwmUnit → Outcome PwmUnit Fault Refusal)
    (h : s.units[s.sel]? = some u) :
    onSelected s f =
      match f u with
      | .next u'   => .next (s.putUnit u')
      | .fault r   => .fault r
      | .refused r => .refused r := by
  cases hf : f u <;> simp only [onSelected, h, hf]

theorem onSelected_next {s : State} {u u' : PwmUnit} {f : PwmUnit → Outcome PwmUnit Fault Refusal}
    (h : s.units[s.sel]? = some u) (hf : f u = .next u') : onSelected s f = .next (s.putUnit u') := by
  simp only [onSelected, h, hf]

theorem onSelected_fault {s : State} {u : PwmUnit} {r : Fault} {f : PwmUnit → Outcome PwmUnit Fault Refusal}
    (h : s.units[s.sel]? = some u) (hf : f u = .fault r) : onSelected s f = .fault r := by
  simp only [onSelected, h, hf]

/-- A command answers a next state only where the selected unit exists and its command answers a next unit. -/
theorem onSelected_cases {s t : State} {f : PwmUnit → Outcome PwmUnit Fault Refusal} (h : onSelected s f = .next t) :
    ∃ u u', s.units[s.sel]? = some u ∧ f u = .next u' ∧ t = s.putUnit u' := by
  unfold onSelected at h
  split at h
  · cases h
  · next u hu =>
    split at h
    · next u' hf => cases h; exact ⟨u, u', hu, hf, rfl⟩
    · cases h
    · cases h

/-- What `compute_timebase` guarantees where it succeeds (40_mapping.md R102). -/
theorem computeTimebase_bounds {p : Params} {f n : Nat} {t : Timebase} (h : computeTimebase p f n = some t) :
    f ≠ 0 ∧ 1 ≤ n ∧ n ≤ p.maxCount ∧ f ∣ p.inputClockHz ∧ t.prescaler = p.inputClockHz / f - 1 ∧
      t.reload = n - 1 ∧ t.prescaler ≤ p.pscMax := by
  unfold computeTimebase at h
  split at h
  · cases h
  · next h0 =>
    split at h
    · cases h
    · next h1 =>
      split at h
      · cases h
      · next h2 =>
        split at h
        · cases h
        · next h3 =>
          cases h
          rw [not_or] at h1
          exact ⟨h0, by omega, by omega, Nat.dvd_of_mod_eq_zero (not_not.mp h2), rfl, rfl, Nat.le_of_not_lt h3⟩

/-- `compute_timebase` fails exactly where one of the four conditions of 40_mapping.md R101 fails. -/
theorem computeTimebase_none_iff {p : Params} {f n : Nat} :
    computeTimebase p f n = none ↔
      ¬ (f ≠ 0 ∧ 1 ≤ n ∧ n ≤ p.maxCount ∧ f ∣ p.inputClockHz ∧ p.inputClockHz / f ≤ p.pscMax + 1) := by
  unfold computeTimebase
  rw [Nat.dvd_iff_mod_eq_zero]
  repeat' split
  all_goals simp_all <;> omega

/-- The cases of INIT on a unit (41_lifecycle.md R120). -/
theorem initUnit_cases {h : Bool} {u u' : PwmUnit} (he : initUnit h u = .next u') :
    h = false ∧ u.state = .uninitialized ∧ u' = { u with state := .stopped, err := .ok } := by
  unfold initUnit at he
  cases h <;> simp only [Bool.false_eq_true, if_false, if_true] at he
  · split at he
    · cases he
    · next hs => cases he; exact ⟨rfl, not_not.mp hs, rfl⟩
  · cases he

/-- The cases of START on a unit (41_lifecycle.md R121). -/
theorem startUnit_cases {p : Params} {h : Bool} {u u' : PwmUnit} (he : startUnit p h u = .next u') :
    h = false ∧
    ((u.state = .uninitialized ∧ u' = { u with err := .invstate }) ∨
     (u.state ≠ .uninitialized ∧
       ((∃ c ∈ u.chans, c.cfgMode = .reserved) ∨ computeTimebase p u.cfgFreq.toNat u.cfgPeriod.toNat = none) ∧
       u' = { u with err := .config }) ∨
     (u.state ≠ .uninitialized ∧ (∀ c ∈ u.chans, c.cfgMode ≠ .reserved) ∧
       ∃ t, computeTimebase p u.cfgFreq.toNat u.cfgPeriod.toNat = some t ∧
         u' = { (u.stopEffects.latchConfig.programTimer t).release with err := .ok })) := by
  unfold startUnit at he
  cases h <;> simp only [Bool.false_eq_true, if_false, if_true] at he
  · refine ⟨rfl, ?_⟩
    split at he
    · next hs => cases he; exact .inl ⟨hs, rfl⟩
    · next hs =>
      split at he
      · next hm => cases he; exact .inr (.inl ⟨hs, .inl (by simpa using hm), rfl⟩)
      · next hm =>
        split at he
        · next ht => cases he; exact .inr (.inl ⟨hs, .inr ht, rfl⟩)
        · next t ht => cases he; exact .inr (.inr ⟨hs, by simpa using hm, t, ht, rfl⟩)
  · cases he

/-- The cases of STOP on a unit (41_lifecycle.md R122). -/
theorem stopUnit_cases {h : Bool} {u u' : PwmUnit} (he : stopUnit h u = .next u') :
    h = false ∧
    ((u.state = .uninitialized ∧ u' = { u with err := .invstate }) ∨
     (u.state ≠ .uninitialized ∧ u' = { u.stopEffects with state := .stopped, err := .ok })) := by
  unfold stopUnit at he
  cases h <;> simp only [Bool.false_eq_true, if_false, if_true] at he
  · refine ⟨rfl, ?_⟩
    split at he
    · next hs => cases he; exact .inl ⟨hs, rfl⟩
    · next hs => cases he; exact .inr ⟨hs, rfl⟩
  · cases he

/-- The cases of CHPER on a unit (42_channel_ops.md R140). -/
theorem chperUnit_cases {p : Params} {u u' : PwmUnit} (he : chperUnit p u = .next u') :
    (u.state.running = false ∧ u' = { u with err := .invstate }) ∨
    (u.state.running = true ∧ computeTimebase p u.actFreq.toNat u.arg.toNat = none ∧
      u' = { u with err := .config }) ∨
    (u.state.running = true ∧ ∃ t, computeTimebase p u.actFreq.toNat u.arg.toNat = some t ∧
      u' = { u with arrSh := t.reload, period := u.arg.toNat, err := .ok }) := by
  unfold chperUnit at he
  split at he
  · next hs => cases he; exact .inl ⟨by simpa using hs, rfl⟩
  · next hs =>
    have hr : u.state.running = true := by simpa using hs
    split at he
    · next ht => cases he; exact .inr (.inl ⟨hr, ht, rfl⟩)
    · next t ht => cases he; exact .inr (.inr ⟨hr, t, ht, rfl⟩)

/-- The cases of ENCH on a unit (42_channel_ops.md R141). -/
theorem enchUnit_cases {p : Params} {ch : Nat} {u u' : PwmUnit} (he : enchUnit p ch u = .next u') :
    (u.state.running = false ∧ u' = { u with err := .invstate }) ∨
    (u.state.running = true ∧ p.channels ≤ ch ∧ u' = { u with err := .invch }) ∨
    (u.state.running = true ∧ ch < p.channels ∧
      u' = { u with chans := u.chans.modify ch (Channel.enable u.arg.toNat u.period), state := .active,
                    err := .ok }) := by
  unfold enchUnit at he
  split at he
  · next hs => cases he; exact .inl ⟨by simpa using hs, rfl⟩
  · next hs =>
    have hr : u.state.running = true := by simpa using hs
    split at he
    · next hc => cases he; exact .inr (.inl ⟨hr, hc, rfl⟩)
    · next hc => cases he; exact .inr (.inr ⟨hr, Nat.lt_of_not_le hc, rfl⟩)

/-- The cases of DISCH on a unit (42_channel_ops.md R142). -/
theorem dischUnit_cases {p : Params} {ch : Nat} {u u' : PwmUnit} (he : dischUnit p ch u = .next u') :
    (u.state.running = false ∧ u' = { u with err := .invstate }) ∨
    (u.state.running = true ∧ p.channels ≤ ch ∧ u' = { u with err := .invch }) ∨
    (u.state.running = true ∧ ch < p.channels ∧
      u' = { u with chans := u.chans.modify ch Channel.disable, err := .ok }) := by
  unfold dischUnit at he
  split at he
  · next hs => cases he; exact .inl ⟨by simpa using hs, rfl⟩
  · next hs =>
    have hr : u.state.running = true := by simpa using hs
    split at he
    · next hc => cases he; exact .inr (.inl ⟨hr, hc, rfl⟩)
    · next hc => cases he; exact .inr (.inr ⟨hr, Nat.lt_of_not_le hc, rfl⟩)

/-- The command of each constructor on one unit. -/
def unitCommand (p : Params) : Instr → PwmUnit → Outcome PwmUnit Fault Refusal
  | .init h     => initUnit h
  | .start h    => startUnit p h
  | .stop h     => stopUnit h
  | .chper _    => chperUnit p
  | .ench _ ch  => enchUnit p ch
  | .disch _ ch => dischUnit p ch

/-- Every command acts on the selected unit alone. -/
theorem exec_eq_onSelected (i : Instr) (s : State) : exec i s = onSelected s (unitCommand s.params i) := by
  cases i <;> rfl

/-- No command of a unit is refused. -/
theorem unitCommand_not_refused (p : Params) (i : Instr) (u : PwmUnit) (r : Refusal) :
    unitCommand p i u ≠ .refused r := by
  cases i <;>
    simp only [unitCommand, initUnit, startUnit, stopUnit, chperUnit, enchUnit, dischUnit, raise, complete] <;>
    repeat' split
  all_goals simp

/-- What no command writes in its own unit: the constants, ARG, NOTIFY and the staging registers. -/
theorem unitCommand_frame {p : Params} {i : Instr} {u u' : PwmUnit} (h : unitCommand p i u = .next u') :
    u'.info = u.info ∧ u'.arg = u.arg ∧ u'.notify = u.notify ∧ u'.cfgFreq = u.cfgFreq ∧
      u'.cfgPeriod = u.cfgPeriod ∧ u'.cfgPcb = u.cfgPcb ∧ u'.cfgRaw = u.cfgRaw ∧
      u'.chans.map (fun c => (c.cfgMode, c.cfgCcb)) = u.chans.map (fun c => (c.cfgMode, c.cfgCcb)) := by
  have hmod : ∀ (cs : List Channel) (k : Nat) (f : Channel → Channel),
      (∀ c, (f c).cfgMode = c.cfgMode ∧ (f c).cfgCcb = c.cfgCcb) →
      (cs.modify k f).map (fun c => (c.cfgMode, c.cfgCcb)) = cs.map (fun c => (c.cfgMode, c.cfgCcb)) := by
    intro cs k f hf
    apply List.ext_getElem?
    intro j
    simp only [List.getElem?_map, List.getElem?_modify]
    cases cs[j]? <;> simp
    split <;> simp [hf]
  cases i with
  | init h' => obtain ⟨-, -, rfl⟩ := initUnit_cases h; simp
  | start h' =>
    obtain ⟨-, ⟨-, rfl⟩ | ⟨-, -, rfl⟩ | ⟨-, -, t, -, rfl⟩⟩ := startUnit_cases h <;>
      simp [PwmUnit.release, PwmUnit.programTimer, PwmUnit.latchConfig, Channel.program]
  | stop h' => obtain ⟨-, ⟨-, rfl⟩ | ⟨-, rfl⟩⟩ := stopUnit_cases h <;> simp
  | chper h' => obtain ⟨-, rfl⟩ | ⟨-, -, rfl⟩ | ⟨-, t, -, rfl⟩ := chperUnit_cases h <;> simp
  | ench h' ch =>
    obtain ⟨-, rfl⟩ | ⟨-, -, rfl⟩ | ⟨-, -, rfl⟩ := enchUnit_cases h <;> simp
    exact hmod _ _ _ fun c => ⟨rfl, rfl⟩
  | disch h' ch =>
    obtain ⟨-, rfl⟩ | ⟨-, -, rfl⟩ | ⟨-, -, rfl⟩ := dischUnit_cases h <;> simp
    exact hmod _ _ _ fun c => ⟨rfl, rfl⟩

end Sys2Proof.Machine
end

