-- ==== Sys2Proof/Laws/Bus.lean ====
section
/-! SUPPORT. Where an access goes, and what a step can do. -/

namespace Sys2Proof.Machine

open Host (Outcome)

/-- What `locate` finds: a unit whose window holds the address, and the offset in it. -/
theorem locate_some {a k off : Nat} {us : List PwmUnit} (h : locate a us = some (k, off)) :
    ∃ u, us[k]? = some u ∧ a = u.info.base + off ∧ off < Config.windowBytes := by
  induction us generalizing k with
  | nil => simp [locate] at h
  | cons u us ih =>
    unfold locate at h
    split at h
    · next ho =>
      simp at h
      obtain ⟨rfl, rfl⟩ := h
      simp only [PwmUnit.owns, decide_eq_true_eq] at ho
      exact ⟨u, rfl, by omega, by omega⟩
    · split at h
      · cases h
      · next j o hl =>
        simp at h
        obtain ⟨rfl, rfl⟩ := h
        simpa using ih hl

/-- Where `locate` finds nothing, no window holds the address. -/
theorem locate_none {a : Nat} {us : List PwmUnit} (h : locate a us = none) : ∀ u ∈ us, u.owns a = false := by
  induction us with
  | nil => simp
  | cons u us ih =>
    unfold locate at h
    split at h
    · cases h
    · next ho =>
      split at h
      · next hl => simpa using ⟨by simpa using ho, by simpa using ih hl⟩
      · cases h

/-- With windows that do not overlap, the address of an offset of a unit's window is located there. -/
theorem locate_of_get {us : List PwmUnit} {k off : Nat} {u : PwmUnit}
    (hd : (us.map PwmUnit.info).Pairwise Config.UnitInfo.Disjoint) (hk : us[k]? = some u)
    (ho : off < Config.windowBytes) : locate (u.info.base + off) us = some (k, off) := by
  induction us generalizing k with
  | nil => simp at hk
  | cons v vs ih =>
    simp only [List.map_cons, List.pairwise_cons] at hd
    cases k with
    | zero =>
      simp at hk
      subst hk
      simp [locate, PwmUnit.owns, ho]
    | succ k =>
      simp at hk
      have hv := hd.1 u.info (List.mem_map_of_mem (List.mem_of_getElem? hk))
      have : v.owns (u.info.base + off) = false := by
        simp only [PwmUnit.owns, decide_eq_false_iff_not]
        rcases hv with hv | hv <;> omega
      simp [locate, this, ih hd.2 hk]

/-- What an admitted access is (20_memory.md R61). -/
theorem admitted_some {s : State} {a n k off : Nat} (h : admitted s a n = some (k, off)) :
    n = 4 ∧ off % 4 = 0 ∧ off < Config.windowBytes ∧ ∃ u, s.units[k]? = some u ∧ a = u.info.base + off := by
  unfold admitted at h
  split at h
  · cases h
  · next j o hl =>
    split at h
    · next hc =>
      simp at h
      obtain ⟨rfl, rfl⟩ := h
      obtain ⟨u, hu, ha, ho⟩ := locate_some hl
      exact ⟨hc.1, hc.2, ho, u, hu, ha⟩
    · cases h

/-- What the next event of a step does (00_scope.md R7, 20_memory.md R61-R63, 30_encoding.md R84): the outcomes `o` of
performing it. -/
inductive Performs (s : State) : Config.Event → Outcome State Fault Refusal → Prop where
  | badRead {a n} : admitted s a n = none → Performs s (.host (.read a n)) (.fault (.busError a n))
  | badWrite {a n v} : admitted s a n = none → Performs s (.host (.write a n v)) (.fault (.busError a n))
  | read {a n k off u} : admitted s a n = some (k, off) → s.units[k]? = some u →
      Performs s (.host (.read a n)) (.next { s with readData := readReg s.params u (regAt s.params off) })
  | store {a n v k off u} : admitted s a n = some (k, off) → s.units[k]? = some u → regAt s.params off ≠ .cmd →
      Performs s (.host (.write a n v))
        (.next { s with units := s.units.set k (writeReg v u (regAt s.params off)) })
  | command {a n v k off} : admitted s a n = some (k, off) → regAt s.params off = .cmd →
      Performs s (.host (.write a n v)) (executeCommand v { s with sel := k })
  | clk {k} : Performs s (.clk k) (.next (s.modifyUnit k PwmUnit.clk))
  | dispatch {k} : Performs s (.dispatch k) (.next (s.modifyUnit k PwmUnit.dispatch))

/-- Every event is performed in one of these ways. -/
theorem perform_cases (e : Config.Event) (s : State) : Performs s e (perform e s) := by
  cases e with
  | clk k => exact .clk
  | dispatch k => exact .dispatch
  | host b =>
    cases b with
    | read a n =>
      simp only [perform, access, hostRead]
      cases hA : admitted s a n with
      | none => exact .badRead hA
      | some r =>
        obtain ⟨k, off⟩ := r
        obtain ⟨-, -, -, u, hu, -⟩ := admitted_some hA
        simp only [hu]
        exact .read hA hu
    | write a n v =>
      simp only [perform, access, hostWrite]
      cases hA : admitted s a n with
      | none => exact .badWrite hA
      | some r =>
        obtain ⟨k, off⟩ := r
        obtain ⟨-, -, -, u, hu, -⟩ := admitted_some hA
        simp only
        split
        · next hc => exact .command hA hc
        · next hc =>
          rw [State.modifyUnit_of_get _ hu]
          exact .store hA hu hc

/-- `takeEvent` writes the agenda and the slot only. -/
theorem takeEvent_frame (s : State) :
    ∃ agenda slot, (takeEvent s).2 = { s with agenda := agenda, slot := slot } := by
  unfold takeEvent
  split
  · exact ⟨_, s.slot, rfl⟩
  · next h => exact ⟨[], s.slot + 1, by simp [h]⟩

@[simp] theorem takeEvent_units (s : State) : (takeEvent s).2.units = s.units := by
  obtain ⟨a, n, h⟩ := takeEvent_frame s; rw [h]

@[simp] theorem takeEvent_params (s : State) : (takeEvent s).2.params = s.params := by
  obtain ⟨a, n, h⟩ := takeEvent_frame s; rw [h]

@[simp] theorem takeEvent_sel (s : State) : (takeEvent s).2.sel = s.sel := by
  obtain ⟨a, n, h⟩ := takeEvent_frame s; rw [h]

@[simp] theorem takeEvent_readData (s : State) : (takeEvent s).2.readData = s.readData := by
  obtain ⟨a, n, h⟩ := takeEvent_frame s; rw [h]

/-- Which accesses are admitted depends on the units alone. -/
theorem admitted_congr {s t : State} (h : s.units = t.units) (a n : Nat) : admitted s a n = admitted t a n := by
  unfold admitted; rw [h]

@[simp] theorem admitted_takeEvent (s : State) (a n : Nat) : admitted (takeEvent s).2 a n = admitted s a n :=
  admitted_congr (takeEvent_units s) a n

/-- A step performs its next event on the state with that event taken. -/
theorem step_cases (s : State) : Performs (takeEvent s).2 (takeEvent s).1 (step s) :=
  perform_cases _ _

/-- CMD is the register at offset 0, and only there. -/
theorem regAt_eq_cmd {p : Config.Params} {off : Nat} (h : regAt p off = .cmd) : off = 0 := by
  unfold regAt at h
  split at h
  · have only : ∀ row ∈ fixedRegisters, row.2 = .cmd → row.1 = 0 := by decide
    split at h
    · next row hf =>
      have h0 := only row (List.mem_of_find?_eq_some hf) h
      have h1 := List.find?_some hf
      simp only [beq_iff_eq] at h1
      omega
    · cases h
  · split at h
    · unfold channelRegister at h
      repeat' split at h
      all_goals cases h
    · cases h

@[simp] theorem regAt_zero (p : Config.Params) : regAt p 0 = .cmd := rfl

/-- What executing a command word can do to the selected unit: raise ILLEGAL, or a command's own outcome. -/
theorem executeCommand_cases (v : Word) (s : State) :
    (∃ r, decodeWord v = .error r ∧ executeCommand v s = onSelected s (raise .illegal)) ∨
    (∃ i, decodeWord v = .ok i ∧ executeCommand v s = onSelected s (unitCommand s.params i)) := by
  unfold executeCommand
  cases h : decodeWord v with
  | error r => exact .inl ⟨r, rfl, rfl⟩
  | ok i => exact .inr ⟨i, rfl, exec_eq_onSelected i s⟩

/-- A write of a register other than CMD keeps every field the host cannot write. -/
theorem writeReg_frame (v : Word) (u : PwmUnit) (r : RegName) :
    ∃ arg cfgFreq cfgPeriod cfgPcb cfgRaw chans,
      writeReg v u r = { u with arg := arg, cfgFreq := cfgFreq, cfgPeriod := cfgPeriod, cfgPcb := cfgPcb,
                                cfgRaw := cfgRaw, chans := chans } ∧
      chans.map (fun c => { c with cfgMode := .disabled, cfgCcb := false }) =
        u.chans.map (fun c => { c with cfgMode := .disabled, cfgCcb := false }) := by
  cases r
  case chCfg i =>
    refine ⟨u.arg, u.cfgFreq, u.cfgPeriod, u.cfgPcb, u.cfgRaw, _, rfl, ?_⟩
    apply List.ext_getElem?
    intro j
    simp only [List.getElem?_map, List.getElem?_modify]
    cases u.chans[j]? <;> simp
    split <;> simp
  all_goals exact ⟨_, _, _, _, _, _, rfl, rfl⟩

end Sys2Proof.Machine
end

