-- ==== Sys2Proof/Laws/Decode.lean ====
section
/-! SUPPORT. The fields of a command word, and the cases of decoding. -/

namespace Sys2Proof

/-- A field of a word is a field of its number. -/
theorem bitField_ofNat (n hi lo : Nat) (hn : n < 2 ^ 32) :
    bitField (BitVec.ofNat 32 n) hi lo = n / 2 ^ lo % 2 ^ (hi + 1 - lo) := by
  simp only [bitField, BitVec.toNat_ofNat, Nat.mod_eq_of_lt hn]

/-- A bit of a word is a bit of its number. -/
theorem bitAt_ofNat (n i : Nat) (hi : i < 32) : bitAt (BitVec.ofNat 32 n) i = decide (n / 2 ^ i % 2 = 1) := by
  simp only [bitAt, BitVec.getLsbD_ofNat, hi, decide_true, Bool.true_and, Nat.testBit_eq_decide_div_mod_eq]

/-- The number of a command word. -/
theorem commandWord_toNat {op ch : Nat} (h : Bool) (hop : op < 16) (hch : ch < 256) :
    (commandWord op ch h).toNat = op + ch * 2 ^ 8 + h.toNat * 2 ^ 31 := by
  have := Bool.toNat_le h
  simp only [commandWord, BitVec.toNat_ofNat]
  omega

/-- A word decodes exactly where none of the checks of 30_encoding.md R84 refuses it. -/
theorem decodeWord_ok {v : Word} {i : Instr} (h : decodeWord v = .ok i) :
    bitField v 7 4 = 0 ∧ bitField v 30 16 = 0 ∧ 1 ≤ bitField v 3 0 ∧ bitField v 3 0 ≤ 6 ∧
      (bitField v 3 0 ≤ 4 → bitField v 15 8 = 0) ∧
      i = commandOf (bitField v 3 0) (bitField v 15 8) (bitAt v 31) := by
  unfold decodeWord at h
  simp only at h
  repeat' split at h
  all_goals simp at h
  next h1 h2 h3 h4 =>
    rw [not_or] at h3
    refine ⟨not_not.mp h1, not_not.mp h2, by omega, by omega, ?_, h.symm⟩
    intro h5
    by_contra h6
    exact h4 ⟨h5, h6⟩

end Sys2Proof
end

