-- ==== Sys2Proof/Laws/Flags.lean ====
section
/-! SUPPORT. What the compare loop, the tick and the dispatch can do. -/

namespace Sys2Proof.Machine

/-- The compare loop puts each channel through one function of its own, and sets OVR when one of them overran
(43_counter_output.md R162, R163). -/
theorem raiseCompares_eq (cnt : Nat) (cs : List Channel) (ovr : Bool) :
    raiseCompares cnt cs ovr =
      (cs.map fun c => { c with ccif := c.ccif || c.matchesAt cnt },
        ovr || cs.any fun c => c.matchesAt cnt && c.ccif) := by
  induction cs generalizing ovr with
  | nil => simp [raiseCompares]
  | cons c cs ih =>
    unfold raiseCompares
    cases hm : c.matchesAt cnt <;> cases hf : c.ccif <;> simp [ih, hm, hf, raiseFlag] <;> cases c <;> simp_all

@[simp] theorem raiseFlag_fst (flag ovr : Bool) : (raiseFlag flag ovr).1 = true := by
  cases flag <;> rfl

@[simp] theorem raiseFlag_snd (flag ovr : Bool) : (raiseFlag flag ovr).2 = (flag || ovr) := by
  cases flag <;> rfl

/-- A tick writes CNT, ARR, the channels and the flags of its unit, and nothing else. -/
theorem PwmUnit.tick_frame (u : PwmUnit) :
    ∃ cnt arr uif ovr chans,
      u.tick = { u with cnt := cnt, arr := arr, uif := uif, ovr := ovr, chans := chans } := by
  unfold PwmUnit.tick PwmUnit.compareEvents PwmUnit.count
  split
  · exact ⟨_, _, _, _, _, rfl⟩
  · exact ⟨_, _, u.uif, _, _, rfl⟩

/-- What a tick does to each channel: the compare and polarity copies of a wrap, and the compare flag. -/
theorem PwmUnit.tick_chans (u : PwmUnit) :
    u.tick.chans = u.chans.map fun c =>
      let d := if u.cnt = u.arr then c.transferShadows else c
      { d with ccif := c.ccif || d.matchesAt (if u.cnt = u.arr then 0 else u.cnt + 1) } := by
  unfold PwmUnit.tick PwmUnit.compareEvents PwmUnit.count
  split
  · simp only [raiseCompares_eq, PwmUnit.wrap, List.map_map]; rfl
  · simp only [raiseCompares_eq]

/-- The three things a CLK step can do to a unit (43_counter_output.md R160, R161). -/
theorem PwmUnit.clk_cases (u : PwmUnit) :
    (u.clkEnabled = false ∧ u.clk = u) ∨
    (u.clkEnabled = true ∧ u.pscCnt < u.psc ∧ u.clk = { u with pscCnt := u.pscCnt + 1 }) ∨
    (u.clkEnabled = true ∧ u.psc ≤ u.pscCnt ∧ u.clk = { u with pscCnt := 0 }.tick) := by
  unfold PwmUnit.clk
  split
  · next h =>
    split
    · next hp => exact .inr (.inl ⟨h, hp, rfl⟩)
    · next hp => exact .inr (.inr ⟨h, Nat.le_of_not_lt hp, rfl⟩)
  · next h => exact .inl ⟨by simpa using h, rfl⟩

/-- The two things a DISPATCH step can do to a unit (60_exceptions.md R187). -/
theorem PwmUnit.dispatch_cases (u : PwmUnit) :
    (u.dispatchEnabled = false ∧ u.dispatch = u) ∨
    (u.dispatchEnabled = true ∧ u.dispatch = { u.clearFlags with notify := u.notify ++ u.notes }) := by
  unfold PwmUnit.dispatch
  split
  · next h => exact .inr ⟨h, rfl⟩
  · next h => exact .inl ⟨by simpa using h, rfl⟩

/-- The records of the channels from index `i` on, as a filter of the indexed list. -/
theorem channelNotes_eq (unitId : Byte) (i : Nat) (cs : List Channel) :
    channelNotes unitId i cs =
      ((cs.zipIdx i).filter fun e => e.1.ccif && e.1.enabled && e.1.actCcb).map fun e =>
        { unitId := unitId, kind := .channel, ch := e.2 } := by
  induction cs generalizing i with
  | nil => rfl
  | cons c cs ih =>
    unfold channelNotes
    cases h : c.ccif && c.enabled && c.actCcb <;> simp [ih, h, List.zipIdx_cons]

/-- The CHANNEL records of a DISPATCH (60_exceptions.md R187): one for each channel with its event pending, enabled, and its
callback bit set. -/
theorem mem_channelNotes {unitId : Byte} {cs : List Channel} {r : Notification} :
    r ∈ channelNotes unitId 0 cs ↔
      r.unitId = unitId ∧ r.kind = .channel ∧
        ∃ c, cs[r.ch]? = some c ∧ c.ccif = true ∧ c.enabled = true ∧ c.actCcb = true := by
  simp only [channelNotes_eq, List.mem_map, List.mem_filter]
  constructor
  · rintro ⟨⟨c, j⟩, ⟨hm, hc⟩, rfl⟩
    rw [List.mem_zipIdx_iff_getElem?] at hm
    simp only [Bool.and_eq_true] at hc
    exact ⟨rfl, rfl, c, hm, hc.1.1, hc.1.2, hc.2⟩
  · rintro ⟨hid, hkind, c, hc, hf, he, hb⟩
    refine ⟨(c, r.ch), ⟨List.mem_zipIdx_iff_getElem?.mpr hc, by simp [hf, he, hb]⟩, ?_⟩
    cases r
    simp_all

/-- No channel is notified twice in one DISPATCH. -/
theorem channelNotes_nodup (unitId : Byte) (cs : List Channel) : (channelNotes unitId 0 cs).Nodup := by
  rw [channelNotes_eq]
  have hch : ((cs.zipIdx.filter fun e => e.1.ccif && e.1.enabled && e.1.actCcb).map Prod.snd).Nodup := by
    refine List.Nodup.sublist (List.filter_sublist.map _) ?_
    rw [List.zipIdx_map_snd]
    exact List.nodup_range'
  rw [List.nodup_iff_pairwise_ne, List.pairwise_map] at *
  exact hch.imp fun hne he => hne (by simpa using he)

end Sys2Proof.Machine
end

