-- ==== Sys2Proof/Laws/PerInstr.lean ====
section
/-! SUPPORT. Facts about every command as syntax, one lemma per constructor. -/

namespace Sys2Proof.Laws.ReservedFields

/-- The encoded word of a well-formed command has RES0 and RES1 zero and an opcode of 1..6 (30_encoding.md R80, R82). -/
def Statement (i : Instr) : Prop :=
  i.wellFormed = true →
    bitField (encode i) 7 4 = 0 ∧ bitField (encode i) 30 16 = 0 ∧
      1 ≤ bitField (encode i) 3 0 ∧ bitField (encode i) 3 0 ≤ 6

/-- The fields of a command word of opcode `op` and channel `ch`. -/
theorem of_commandWord (op ch : Nat) (h : Bool) (hop : 1 ≤ op ∧ op ≤ 6) (hch : ch < 256) :
    bitField (commandWord op ch h) 7 4 = 0 ∧ bitField (commandWord op ch h) 30 16 = 0 ∧
      1 ≤ bitField (commandWord op ch h) 3 0 ∧ bitField (commandWord op ch h) 3 0 ≤ 6 := by
  have := Bool.toNat_le h
  simp only [bitField, commandWord, BitVec.toNat_ofNat]
  omega

theorem init (h : Bool) : Statement (.init h) := fun _ => of_commandWord 1 0 h (by omega) (by omega)
theorem start (h : Bool) : Statement (.start h) := fun _ => of_commandWord 2 0 h (by omega) (by omega)
theorem stop (h : Bool) : Statement (.stop h) := fun _ => of_commandWord 3 0 h (by omega) (by omega)
theorem chper (h : Bool) : Statement (.chper h) := fun _ => of_commandWord 4 0 h (by omega) (by omega)

theorem ench (h : Bool) (ch : Nat) : Statement (.ench h ch) := fun hw =>
  of_commandWord 5 ch h (by omega) (by simpa [Instr.wellFormed, channelFits] using hw)

theorem disch (h : Bool) (ch : Nat) : Statement (.disch h ch) := fun hw =>
  of_commandWord 6 ch h (by omega) (by simpa [Instr.wellFormed, channelFits] using hw)

end Sys2Proof.Laws.ReservedFields
end

