-- ==== Sys2Proof/Laws/Registers.lean ====
section
/-! SUPPORT. The words of registers: the channel mask bit by bit, and the register of a channel's row. -/

namespace Sys2Proof.Machine

/-- A mask of `n` bits is below `2 ^ n`. -/
theorem maskOf_lt (bs : List Bool) : maskOf bs < 2 ^ bs.length := by
  induction bs with
  | nil => decide
  | cons b bs ih =>
    have := Bool.toNat_le b
    simp only [maskOf, List.length_cons, Nat.pow_succ]
    omega

/-- Bit `i` of a mask is element `i`, and 0 past its end. -/
theorem maskOf_testBit (bs : List Bool) (i : Nat) : (maskOf bs).testBit i = (bs[i]?).getD false := by
  induction bs generalizing i with
  | nil => simp [maskOf]
  | cons b bs ih =>
    cases i with
    | zero => cases b <;> simp [maskOf]
    | succ i =>
      have : maskOf (b :: bs) / 2 = maskOf bs := by
        have := Bool.toNat_le b
        simp only [maskOf]
        omega
      rw [Nat.testBit_succ, this, ih]
      simp

/-- The register at an offset of an existing channel's row (10_state.md R40). -/
theorem regAt_channel {p : Config.Params} {i r : Nat} (hi : i < p.channels) (hr : r < 0x10) :
    regAt p (0x100 + 0x10 * i + r) = channelRegister i r := by
  have h1 : (0x100 + 0x10 * i + r - 0x100) / 0x10 = i := by omega
  have h2 : (0x100 + 0x10 * i + r - 0x100) % 0x10 = r := by omega
  have h3 : ¬ 0x100 + 0x10 * i + r < 0x100 := by omega
  simp only [regAt, h1, h2, hi, h3, if_true, if_false]

/-- The mode value of a two-bit field comes back from its mode (10_state.md R43). -/
theorem ChannelMode.code_ofCode {n : Nat} (h : n < 4) : (ChannelMode.ofCode n).code = n := by
  obtain rfl | rfl | rfl | rfl : n = 0 ∨ n = 1 ∨ n = 2 ∨ n = 3 := by omega
  all_goals rfl

/-- The numbers of STATE (10_state.md R21). -/
theorem DriverState.code_eq (d : DriverState) :
    d.code = match d with
      | .uninitialized => 0
      | .stopped => 1
      | .ready => 2
      | .active => 3 := by cases d <;> rfl

/-- The numbers of ERR (60_exceptions.md R182). -/
theorem ErrCode.code_eq (e : ErrCode) :
    e.code = match e with
      | .ok => 0
      | .config => 1
      | .invch => 2
      | .invstate => 3
      | .illegal => 4 := by cases e <;> rfl

/-- The numbers of a channel mode (10_state.md R43). -/
theorem ChannelMode.code_eq (m : ChannelMode) :
    m.code = match m with
      | .disabled => 0
      | .activeHigh => 1
      | .activeLow => 2
      | .reserved => 3 := by cases m <;> rfl

theorem DriverState.code_lt (d : DriverState) : d.code < 4 := by cases d <;> decide

theorem ErrCode.code_lt (e : ErrCode) : e.code < 5 := by cases e <;> decide

theorem ChannelMode.code_lt (m : ChannelMode) : m.code < 4 := by cases m <;> decide

end Sys2Proof.Machine
end

