-- ==== Sys2Proof/Laws/Step.lean ====
section
/-! SUPPORT. What one step does to one unit, said once, and how accesses and runs of steps unfold. -/

namespace Sys2Proof.Machine

open Host (Outcome)

/-- Taking a placed event. -/
theorem takeEvent_cons {s : State} {e : Config.Event} {rest : List Config.Event} (h : s.agenda = e :: rest) :
    takeEvent s = (e, { s with agenda := rest }) := by
  simp only [takeEvent, h]

/-- In a state that meets the invariant, an aligned word access to a unit's window is admitted there, whatever is on the
agenda. -/
theorem admitted_of_inv {s : State} (hI : s.Inv) {k off : Nat} {u : PwmUnit} (hk : s.units[k]? = some u)
    (ho : off < Config.windowBytes) (h4 : off % 4 = 0) : admitted s (u.info.base + off) 4 = some (k, off) := by
  simp [admitted, locate_of_get hI.infos.disjoint hk ho, h4]

/-- A placed read returns the word of the register at its offset. -/
theorem readsAs_of_readReg {s : State} (hI : s.Inv) {k off : Nat} {u : PwmUnit} (hk : s.units[k]? = some u)
    (ho : off < Config.windowBytes) (h4 : off % 4 = 0) {w : Word}
    (hw : readReg s.params u (regAt s.params off) = w) : s.ReadsAs k off w := by
  intro u' rest hu'
  rw [hk] at hu'
  cases hu'
  have hA : ∀ r, admitted { s with agenda := r } (u.info.base + off) 4 = some (k, off) := fun r =>
    (admitted_congr rfl _ _).trans (admitted_of_inv hI hk ho h4)
  simp [step, takeEvent, perform, access, hostRead, hA, hk, hw]

/-- A placed write away from CMD stores in the register at its offset. -/
theorem writesAs_writeReg {s : State} (hI : s.Inv) (k : Nat) {off : Nat} (ho : off < Config.windowBytes)
    (h4 : off % 4 = 0) (h0 : off ≠ 0) (v : Word) :
    s.WritesAs k off v (fun u => writeReg v u (regAt s.params off)) := by
  intro u rest hk
  have hA : ∀ r, admitted { s with agenda := r } (u.info.base + off) 4 = some (k, off) := fun r =>
    (admitted_congr rfl _ _).trans (admitted_of_inv hI hk ho h4)
  have hc : regAt s.params off ≠ .cmd := fun h => h0 (regAt_eq_cmd h)
  simp [step, takeEvent, perform, access, hostWrite, hA, hc, State.modifyUnit, modify_eq_set_of_get _ hk]

/-- What a step can do to the unit `u` at position `k`. -/
inductive Did (s : State) (k : Nat) (u : PwmUnit) : PwmUnit → Prop where
  | same : Did s k u u
  | clk : s.nextEvent = .clk k → Did s k u u.clk
  | dispatch : s.nextEvent = .dispatch k → Did s k u u.dispatch
  | store {a n v off} : s.nextEvent = .host (.write a n v) → admitted s a n = some (k, off) →
      regAt s.params off ≠ .cmd → Did s k u (writeReg v u (regAt s.params off))
  | illegal {v} : s.writesCmd k v → (∃ r, decodeWord v = .error r) → Did s k u { u with err := .illegal }
  | command {i u'} : s.runs k i → unitCommand s.params i u = .next u' → Did s k u u'

/-- Every step that goes on did one of these to each unit. -/
theorem did_of_step {s t : State} (h : step s = .next t) {k : Nat} {u u' : PwmUnit} (hk : s.units[k]? = some u)
    (hk' : t.units[k]? = some u') : Did s k u u' := by
  have hc := step_cases s
  rw [h] at hc
  have hne : s.nextEvent = (takeEvent s).1 := rfl
  generalize ho : Outcome.next t = o at hc
  generalize he : (takeEvent s).1 = e at hc hne
  cases hc with
  | badRead => cases ho
  | badWrite => cases ho
  | read =>
    cases ho
    simp only [takeEvent_units, hk, Option.some.injEq] at hk'
    exact hk' ▸ .same
  | @clk j =>
    cases ho
    by_cases hj : j = k
    · subst hj
      simp [hk] at hk'
      exact hk' ▸ .clk hne
    · simp [hj, hk] at hk'
      exact hk' ▸ .same
  | @dispatch j =>
    cases ho
    by_cases hj : j = k
    · subst hj
      simp [hk] at hk'
      exact hk' ▸ .dispatch hne
    · simp [hj, hk] at hk'
      exact hk' ▸ .same
  | @store a n v j off w hA hu hr =>
    cases ho
    simp only [takeEvent_units, takeEvent_params, admitted_takeEvent] at *
    rw [List.getElem?_set] at hk'
    split at hk'
    · next hj =>
      subst hj
      rw [hk] at hu
      cases hu
      split at hk'
      · cases hk'
        exact .store hne hA hr
      · cases hk'
    · rw [hk] at hk'
      cases hk'
      exact .same
  | @command a n v j off hA hr =>
    obtain rfl := regAt_eq_cmd hr
    have hw : s.writesCmd j v := ⟨a, n, hne, by simpa using hA⟩
    rcases executeCommand_cases v { (takeEvent s).2 with sel := j } with ⟨r, hd, hx⟩ | ⟨i, hd, hx⟩
    all_goals
      rw [hx] at ho
      obtain ⟨u₁, u₂, hu₁, hf, rfl⟩ := onSelected_cases ho.symm
      simp only [takeEvent_units, takeEvent_params, State.putUnit_units] at *
      rw [List.getElem?_set] at hk'
      by_cases hj : j = k
    · subst hj
      rw [hk] at hu₁
      cases hu₁
      cases hf
      simp at hk'
      exact hk'.2 ▸ .illegal hw ⟨r, hd⟩
    · simp [hj, hk] at hk'
      exact hk' ▸ .same
    · subst hj
      rw [hk] at hu₁
      cases hu₁
      simp at hk'
      exact hk'.2 ▸ .command ⟨v, hw, hd⟩ hf
    · simp [hj, hk] at hk'
      exact hk' ▸ .same

/-- No step adds or removes a unit, or changes a parameter. -/
theorem step_length {s t : State} (h : step s = .next t) : t.units.length = s.units.length := by
  have hc := step_cases s
  rw [h] at hc
  generalize ho : Outcome.next t = o at hc
  generalize (takeEvent s).1 = e at hc
  cases hc with
  | badRead => cases ho
  | badWrite => cases ho
  | read => cases ho; simp
  | clk => cases ho; simp
  | dispatch => cases ho; simp
  | store => cases ho; simp
  | @command a n v j off hA hr =>
    rcases executeCommand_cases v { (takeEvent s).2 with sel := j } with ⟨r, hd, hx⟩ | ⟨i, hd, hx⟩
    all_goals
      rw [hx] at ho
      obtain ⟨u₁, u₂, hu₁, hf, rfl⟩ := onSelected_cases ho.symm
      simp

/-- A run of one step more, where the first goes on. -/
theorem run_succ_of_next {M : Host.Core} {s t : M.State} (h : M.step s = .next t) (n : Nat) :
    M.run (n + 1) s = M.run n t := by
  simp [Host.Core.run, h]

end Sys2Proof.Machine
end

