-- ==== Sys2Proof/Tests/Slice0.lean ====
section
/-! SUPPORT. Tests of one step each, with the expected values of 95_test_vectors.md or of a rule's worked example, and for
each obligation with hypotheses a witness that meets them. -/

namespace Sys2Proof.Tests

open Sys2Proof Sys2Proof.Machine
open Sys2Proof.Config (Params UnitInfo Event BusAccess)
open Host (Outcome)

/-! ## Well-formedness and decoding -/

theorem test_wellFormed_admits_every_byte :
    (Instr.ench true 255).wellFormed = true ∧ (Instr.disch false 255).wellFormed = true ∧
    (Instr.ench false 0).wellFormed = true ∧ (Instr.init true).wellFormed = true := by decide

/-- A channel index that does not fit CMD[15:8] is refused, in both commands that carry one. -/
theorem test_wellFormed_refuses_ill_formed :
    (Instr.ench false 256).wellFormed = false ∧ (Instr.disch true 256).wellFormed = false := by decide

/-- The fields of 30_encoding.md R80, highest first: HCTX, RES1 (15 bits), CH (8), RES0 (4), OP (4). -/
theorem test_decode_init : decodeWord 0b0_000000000000000_00000000_0000_0001 = .ok (.init false) := by decide
theorem test_decode_start : decodeWord 0b1_000000000000000_00000000_0000_0010 = .ok (.start true) := by decide
theorem test_decode_stop : decodeWord 0b0_000000000000000_00000000_0000_0011 = .ok (.stop false) := by decide
theorem test_decode_chper : decodeWord 0b1_000000000000000_00000000_0000_0100 = .ok (.chper true) := by decide
theorem test_decode_ench : decodeWord 0b0_000000000000000_00000010_0000_0101 = .ok (.ench false 2) := by decide
theorem test_decode_disch : decodeWord 0b1_000000000000000_11111111_0000_0110 = .ok (.disch true 255) := by decide

/-- The illegal words of vectors E1 to E8, each with the name of its rejection. -/
theorem test_decode_illegal :
    decodeWord 0x00000000 = .error (.reservedOpcode 0) ∧ decodeWord 0x00000007 = .error (.reservedOpcode 7) ∧
    decodeWord 0x0000000F = .error (.reservedOpcode 15) ∧ decodeWord 0x00000011 = .error .reservedLow ∧
    decodeWord 0x00010005 = .error .reservedHigh ∧ decodeWord 0x00000101 = .error (.unexpectedChannel 1 1) ∧
    decodeWord 0x80000101 = .error (.unexpectedChannel 1 1) ∧ decodeWord 0x80000000 = .error (.reservedOpcode 0) := by
  decide

/-- Little-endian bytes (20_memory.md R64), with the rest handed back, and a short word refused. -/
theorem test_decode_bytes :
    decodeBytes [0x05, 0x02, 0x00, 0x00, 0xAA] = .ok (.ench false 2, [0xAA]) ∧
    decodeBytes [0x06, 0x00, 0x00, 0x80] = .ok (.disch true 0, []) ∧
    decodeBytes [0x05, 0x02] = .error (.truncated 2) := by decide

theorem test_decode_table_word :
    decodeTableWord 32 0x00000001 = some (.init false) ∧ decodeTableWord 32 0x80000405 = some (.ench true 4) ∧
    decodeTableWord 32 0x00000007 = none := by decide

/-- The words of the pseudo-instructions of 30_encoding.md R90 and of vectors E9, E10. -/
theorem test_encode :
    encode (.ench false 4) = 0x00000405 ∧ encode (.disch false 255) = 0x0000FF06 ∧ encode (.start true) = 0x80000002 := by
  decide

/-! ## Small states -/

/-- The unit of 95_test_vectors.md section 0, after reset. -/
def resetUnit : PwmUnit := PwmUnit.reset Config.sampleParams { id := 1, base := 0x40000000, prio := 7 }

/-- Stopped, with `cfg 1000000, 1000, 1` staged and channels ActiveHigh, ActiveLow, Disabled, Disabled, callbacks on 0
and 2. -/
def stoppedUnit : PwmUnit :=
  { resetUnit with
    state := .stopped, cfgFreq := 1000000, cfgPeriod := 1000, cfgPcb := true
    chans := [{ Channel.reset with cfgMode := .activeHigh, cfgCcb := true }, { Channel.reset with cfgMode := .activeLow },
      { Channel.reset with cfgCcb := true }, Channel.reset] }

/-- That unit, started (41_lifecycle.md R121, worked example). -/
def readyUnit : PwmUnit :=
  { stoppedUnit with
    state := .ready, period := 1000, cfgv := true, actFreq := 1000000, actPcb := true, clken := true, cen := true,
    ie := true, psc := 71, arr := 999, arrSh := 999
    chans := [{ Channel.reset with cfgMode := .activeHigh, cfgCcb := true, actMode := .activeHigh, actCcb := true,
                                   oe := true, oeSh := true },
      { Channel.reset with cfgMode := .activeLow, actMode := .activeLow, oe := true, oeSh := true, pol := true,
                           polSh := true },
      { Channel.reset with cfgCcb := true, actCcb := true }, Channel.reset] }

/-- That unit, Active with channel 0 enabled at width 500, at the last prescaler cycle of the last tick of a period with the
period event pending. -/
def activeUnit : PwmUnit :=
  { readyUnit with
    state := .active, arg := 500, pscCnt := 71, cnt := 999, uif := true
    chans := readyUnit.chans.set 0
      { Channel.reset with cfgMode := .activeHigh, cfgCcb := true, actMode := .activeHigh, actCcb := true, oe := true,
                           oeSh := true, enabled := true, ccr := 500, ccrSh := 500, ccif := true } }

/-- The machine of one unit, with events placed. -/
def withUnit (u : PwmUnit) (events : List Event := []) : State :=
  { State.reset with units := [u], agenda := events }

/-- A machine of two units of the same channels, the second at the next window. -/
def twoUnits (u : PwmUnit) (events : List Event := []) : State :=
  { State.reset with
    units := [u, PwmUnit.reset Config.sampleParams { id := 2, base := 0x40000200, prio := 0 }], agenda := events }

/-- The placed write of a command word. -/
def writeCmd (v : Word) : Event := .host (.write 0x40000000 4 v)

/-- The unit at position 0 of a next state. -/
def unitOf : Outcome State Fault Refusal → Option PwmUnit
  | .next t => t.units[0]?
  | _ => none

/-- The reason of a fault. -/
def faultOf : Outcome State Fault Refusal → Option Fault
  | .fault f => some f
  | _ => none

/-- The word the host has read in a next state. -/
def readOf : Outcome State Fault Refusal → Option Word
  | .next t => some t.readData
  | _ => none

/-- A step that goes on to a unit with the property `P`, found by evaluation. -/
theorem goesOn {o : Outcome State Fault Refusal} (P : PwmUnit → Prop) [DecidablePred P]
    (h : (unitOf o).any (fun u => decide (P u)) = true) : ∃ t u, o = .next t ∧ t.units[0]? = some u ∧ P u := by
  cases o with
  | next t =>
    cases hu : t.units[0]? with
    | none => simp [unitOf, hu] at h
    | some u => exact ⟨t, u, rfl, hu, by simpa [unitOf, hu] using h⟩
  | fault r => cases h
  | refused r => cases h

/-! ## Commands -/

/-- Vector E17, as the first step after reset. -/
theorem test_init : (unitOf (step (State.reset.withFetchWord 32 0x00000001))).map PwmUnit.statusWord = some 0x00000001 := by
  decide

/-- Vectors E15 and E16. -/
theorem test_init_faults :
    faultOf (step (withUnit stoppedUnit [writeCmd 0x80000001])) = some (.reentrantLifecycle .init) ∧
    faultOf (step (withUnit stoppedUnit [writeCmd 0x00000001])) = some .doubleInit := by decide

/-- Vector M7. -/
theorem test_start :
    (unitOf (step (withUnit stoppedUnit [writeCmd 0x00000002]))).map
      (fun u => (u.psc, u.arr, u.arrSh, u.period, u.statusWord)) = some (71, 999, 999, 1000, 0x00000F02) := by decide

/-- Vector M20: a rejected START leaves the running unit untouched but for ERR. -/
theorem test_start_rejected :
    unitOf (exec (.start false) (withUnit { activeUnit with cfgFreq := 7000000 })) =
      some { activeUnit with cfgFreq := 7000000, err := .config } := by decide

/-- Vector M21. -/
theorem test_stop :
    (unitOf (exec (.stop false) (withUnit activeUnit))).map (fun u => (u.statusWord, u.enabledMask, u.flagsWord)) =
      some (0x00000001, 0, 0x00000000) := by decide

/-- Vectors M3 and M25. -/
theorem test_stop_errors :
    (unitOf (exec (.stop false) (withUnit resetUnit))).map PwmUnit.statusWord = some 0x00000030 ∧
    faultOf (exec (.stop true) (withUnit activeUnit)) = some (.reentrantLifecycle .stop) := by decide

/-- Vector M15. -/
theorem test_chper :
    (unitOf (exec (.chper false) (withUnit { readyUnit with arg := 2000 }))).map
      (fun u => (u.period, u.arrSh, u.arr, u.err)) = some (2000, 1999, 999, .ok) := by decide

/-- Vectors M16 and M10. -/
theorem test_chper_errors :
    unitOf (exec (.chper false) (withUnit { readyUnit with arg := 0 })) = some { readyUnit with arg := 0, err := .config } ∧
    (unitOf (exec (.chper true) (withUnit stoppedUnit))).map PwmUnit.statusWord = some 0x00000031 := by decide

/-- The worked example of 42_channel_ops.md R141. -/
theorem test_ench :
    (unitOf (exec (.ench false 0) (withUnit { readyUnit with arg := 500 }))).map
      (fun u => (u.enabledMask, u.statusWord, u.chans[0]?.map Channel.ccrSh, u.chans[0]?.map Channel.ccr)) =
      some (1, 0x00000F03, some 500, some 0) := by decide

/-- Vectors E9 and E11. -/
theorem test_ench_errors :
    unitOf (exec (.ench false 4) (withUnit activeUnit)) = some { activeUnit with err := .invch } ∧
    unitOf (exec (.ench false 255) (withUnit stoppedUnit)) = some { stoppedUnit with err := .invstate } := by decide

/-- Vector M22. -/
theorem test_disch :
    (unitOf (exec (.disch true 0) (withUnit activeUnit))).map
      (fun u => (u.enabledMask, u.statusWord, u.chans[0]?.map Channel.ccrSh, u.channelWord 0 Channel.statWord)) =
      some (0, 0x00000F03, some 500, 0x00000051) := by decide

/-- Vector E10. -/
theorem test_disch_invch :
    unitOf (exec (.disch false 255) (withUnit readyUnit)) = some { readyUnit with err := .invch } := by decide

/-- Vector E7: the encoding check precedes HCTX. -/
theorem test_illegal :
    unitOf (step (withUnit activeUnit [writeCmd 0x80000101])) = some { activeUnit with err := .illegal } := by decide

/-! ## The timer register mapping -/

/-- Vectors T1, T3, T4, T5, T6, T7, T9, T10. -/
theorem test_compute_timebase :
    computeTimebase Config.sampleParams 1000000 1000 = some { prescaler := 71, reload := 999 } ∧
    computeTimebase Config.sampleParams 1000000 65536 = some { prescaler := 71, reload := 65535 } ∧
    computeTimebase Config.sampleParams 1000000 65537 = none ∧ computeTimebase Config.sampleParams 1000000 0 = none ∧
    computeTimebase Config.sampleParams 0 1000 = none ∧ computeTimebase Config.sampleParams 7000000 1000 = none ∧
    computeTimebase Config.sampleParams 1000 10 = none ∧
    computeTimebase Config.sampleParams 1125 100 = some { prescaler := 63999, reload := 99 } := by decide

/-- Vectors K3, K7 and K8. -/
theorem test_compute_channel_register :
    computeChannelRegister .disabled 500 1000 = { compare := 500, oe := false, pol := false } ∧
    computeChannelRegister .activeLow 0xFFFFFFFF 1000 = { compare := 1000, oe := true, pol := true } ∧
    computeChannelRegister .activeHigh 70000 65536 = { compare := 65536, oe := true, pol := false } := by decide

/-! ## The Counter and the Dispatcher -/

/-- Vectors C1 and C2. -/
theorem test_clk :
    (unitOf (step (withUnit { readyUnit with pscCnt := 70 } [.clk 0]))).map (fun u => (u.pscCnt, u.cnt)) = some (71, 0) ∧
    (unitOf (step (withUnit { readyUnit with pscCnt := 71, cnt := 5 } [.clk 0]))).map (fun u => (u.pscCnt, u.cnt)) =
      some (0, 6) := by decide

/-- Vectors C3 and C8: the wrap transfers the shadows, and overruns the pending period event. -/
theorem test_wrap :
    ({ readyUnit with cnt := 3, arr := 3, arrSh := 7, chans := [{ Channel.reset with ccrSh := 2 }] } : PwmUnit).tick =
      { readyUnit with cnt := 0, arr := 7, arrSh := 7, uif := true, chans := [{ Channel.reset with ccrSh := 2, ccr := 2 }] } ∧
    activeUnit.tick.flagsWord = 0x00030001 := by decide

/-- Vectors C5 and C6. -/
theorem test_compare :
    ({ readyUnit with cnt := 3, arr := 3, chans := [Channel.reset, { Channel.reset with enabled := true }] } : PwmUnit
      ).tick.flagsWord = 0x00010002 ∧
    ({ readyUnit with cnt := 4, arr := 9, chans := [{ Channel.reset with ccr := 5 }] } : PwmUnit).tick.flagsWord = 0 ∧
    ({ readyUnit with cnt := 4, arr := 9, chans := [{ Channel.reset with ccr := 5, enabled := true }] } : PwmUnit
      ).tick.flagsWord = 1 := by decide

/-- Vectors O-1 to O-6. -/
theorem test_pin :
    ({ readyUnit with clken := false } : PwmUnit).pin 0 = .z ∧ readyUnit.pin 2 = .z ∧
    ({ activeUnit with cnt := 499 } : PwmUnit).pin 0 = .high ∧ ({ activeUnit with cnt := 500 } : PwmUnit).pin 0 = .low ∧
    readyUnit.pin 1 = .high ∧
    ({ readyUnit with chans := [{ Channel.reset with oe := true, pol := true, ccr := 5 }] } : PwmUnit).pin 0 = .low := by
  decide

/-- Vector D-8: channel, period and fault records in that order, as words, and FLAGS 0. -/
theorem test_dispatch :
    (unitOf (step (withUnit { activeUnit with ovr := true } [.dispatch 0]))).map
      (fun u => (u.notify.map Notification.word, u.flagsWord)) =
      some ([0x00010000, 0x00010100, 0x00010200], 0x00000000) := by decide

/-- Vectors D-4 and D-6: no record for a channel disabled since, nor without the period callback. -/
theorem test_dispatch_gated :
    ({ readyUnit with chans := [{ Channel.reset with ccif := true, actCcb := true }] } : PwmUnit).dispatch.notify = [] ∧
    ({ readyUnit with ovr := true, actPcb := false } : PwmUnit).dispatch =
      { readyUnit with ovr := false, actPcb := false } := by decide

/-! ## Register accesses -/

/-- The STATUS words of 95_test_vectors.md section 0 for Ready and Active, with each error code of R182. -/
theorem test_status_values :
    readyUnit.statusWord = 0x00000F02 ∧ activeUnit.statusWord = 0x00000F03 ∧
    ({ activeUnit with err := .config } : PwmUnit).statusWord = 0x00000F13 ∧
    ({ activeUnit with err := .invch } : PwmUnit).statusWord = 0x00000F23 ∧
    ({ activeUnit with err := .invstate } : PwmUnit).statusWord = 0x00000F33 ∧
    ({ activeUnit with err := .illegal } : PwmUnit).statusWord = 0x00000F43 := by decide

/-- The mode values of 10_state.md R43: CH_CFG 1 stages ActiveHigh, 2 ActiveLow. -/
theorem test_mode_values :
    (unitOf (step (withUnit resetUnit [.host (.write 0x40000110 4 1)]))).bind
      (fun u => u.chans[1]?.map Channel.cfgMode) = some .activeHigh ∧
    (unitOf (step (withUnit resetUnit [.host (.write 0x40000110 4 2)]))).bind
      (fun u => u.chans[1]?.map Channel.cfgMode) = some .activeLow := by decide

/-- Vectors A-1, A-2 and A-3. -/
theorem test_read_constants :
    readOf (step (withUnit activeUnit [.host (.read 0x40000038 4)])) = some 0x07100401 ∧
    readOf (step (withUnit activeUnit [.host (.read 0x40000040 4)])) = some 0x00000010 ∧
    readOf (step (withUnit activeUnit [.host (.read 0x40000000 4)])) = some 0 := by decide

/-- Vectors A-6, A-7 and A-8. -/
theorem test_write_registers :
    unitOf (step (withUnit readyUnit [.host (.write 0x40000024 4 5)])) = some readyUnit ∧
    (unitOf (step (withUnit readyUnit [.host (.write 0x4000001C 4 0xFFFFFFFF)]))).map PwmUnit.cfgPcb = some true ∧
    (unitOf (step (withUnit readyUnit [.host (.write 0x40000100 4 0xFFFFFFFF)]))).map
      (fun u => u.channelWord 0 Channel.cfgWord) = some 0x00000007 := by decide

/-- Vectors A-10 and A-11. -/
theorem test_bus_error :
    faultOf (step (withUnit resetUnit [.host (.write 0x40000000 1 1)])) = some (.busError 0x40000000 1) ∧
    faultOf (step (withUnit resetUnit [.host (.read 0x40000006 4)])) = some (.busError 0x40000006 4) := by decide

/-- The bits of CH_STAT (95_test_vectors.md section 0 and program P1's end state). -/
theorem test_channel_status : (activeUnit.channelWord 0 Channel.statWord) = 0x00000055 := by decide

/-- Vectors Z-1 and Z-4: the registers after reset. -/
theorem test_reset :
    readOf (step { State.reset with agenda := [.host (.read 0x40000008 4)] }) = some 0x00000000 ∧
    readOf (step { State.reset with agenda := [.host (.read 0x40000038 4)] }) = some 0x07100401 := by decide

/-! ## The states above meet the invariant -/

theorem sampleParams_valid : Config.sampleParams.Valid := by constructor <;> decide

theorem sampleUnits_valid : Config.UnitsValid Config.sampleParams Config.sampleUnits := by constructor <;> decide

theorem twoInfos_valid :
    Config.UnitsValid Config.sampleParams [resetUnit.info, { id := 2, base := 0x40000200, prio := 0 }] := by
  constructor <;> decide

theorem quiet_of_reset_chans {u : PwmUnit} (h : ∀ c ∈ u.chans, c.Quiet) (hk : u.clken = false) (hc : u.cen = false)
    (hi : u.ie = false) (hv : u.cfgv = false) (hp : u.period = 0) (hf : u.actFreq = 0) (hb : u.actPcb = false)
    (hr : u.rawAct = 0) (hs : u.psc = 0 ∧ u.pscCnt = 0 ∧ u.cnt = 0 ∧ u.arr = 0 ∧ u.arrSh = 0)
    (hu : u.uif = false ∧ u.ovr = false) : u.Quiet :=
  ⟨hk, hc, hi, hv, hp, hf, hb, hr, hs.1, hs.2.1, hs.2.2.1, hs.2.2.2.1, hs.2.2.2.2, hu.1, hu.2, h⟩

/-- A channel is quiet where its timer, latch and flag fields say so. -/
theorem channel_quiet {c : Channel}
    (h : { c with cfgMode := .disabled, cfgCcb := false } = Channel.reset) : c.Quiet := by
  cases c
  simp only [Channel.reset, Channel.mk.injEq] at h
  constructor <;> simp_all

theorem resetUnit_inv : resetUnit.Inv Config.sampleParams :=
  ⟨by decide, fun _ => quiet_of_reset_chans (fun c hc => channel_quiet (by revert c; decide))
    rfl rfl rfl rfl rfl rfl rfl rfl (by decide) (by decide), fun h => absurd h (by decide)⟩

theorem stoppedUnit_inv : stoppedUnit.Inv Config.sampleParams :=
  ⟨by decide, fun _ => quiet_of_reset_chans (fun c hc => channel_quiet (by revert c; decide))
    rfl rfl rfl rfl rfl rfl rfl rfl (by decide) (by decide), fun h => absurd h (by decide)⟩

theorem readyUnit_inv : readyUnit.Inv Config.sampleParams := by
  refine ⟨by decide, fun h => absurd h (by decide), fun _ => ?_⟩
  constructor
  case chans => exact fun c hc => ⟨by revert c; decide, by revert c; decide, by revert c; decide⟩
  all_goals decide

theorem activeUnit_inv : activeUnit.Inv Config.sampleParams := by
  refine ⟨by decide, fun h => absurd h (by decide), fun _ => ?_⟩
  constructor
  case chans => exact fun c hc => ⟨by revert c; decide, by revert c; decide, by revert c; decide⟩
  all_goals decide

theorem withUnit_inv {u : PwmUnit} (events : List Event) (hi : u.info = resetUnit.info)
    (h : u.Inv Config.sampleParams) : (withUnit u events).Inv := by
  refine ⟨sampleParams_valid, ?_, ?_⟩
  · show Config.UnitsValid Config.sampleParams [u.info]
    rw [hi]
    exact sampleUnits_valid
  · intro v hv
    rw [List.mem_singleton.mp hv]
    exact h

theorem reset_inv : (withUnit resetUnit).Inv := withUnit_inv [] rfl resetUnit_inv
theorem stopped_inv : (withUnit stoppedUnit).Inv := withUnit_inv [] rfl stoppedUnit_inv
theorem ready_inv : (withUnit readyUnit).Inv := withUnit_inv [] rfl readyUnit_inv
theorem active_inv : (withUnit activeUnit).Inv := withUnit_inv [] rfl activeUnit_inv

/-! ## Witnesses: for each obligation with hypotheses, a state and operands that meet them -/

theorem witness_CommandWordsHaveTheirEncodedValues : (0 : Nat) < 256 ∧ (255 : Nat) < 256 := by decide

theorem witness_DecodeOfEncodeIsTheCommand :
    (Instr.init true).wellFormed = true ∧ (Instr.start false).wellFormed = true ∧ (Instr.stop true).wellFormed = true ∧
    (Instr.chper false).wellFormed = true ∧ (Instr.ench true 255).wellFormed = true ∧
    (Instr.disch false 0).wellFormed = true := by decide

theorem witness_EncodeOfDecodeIsTheWord : decodeWord 0x8000FF05 = .ok (.ench true 255) := by decide

/-- One word for each clause of the definition of an illegal word. -/
theorem witness_IllegalWordsChangeOnlyErr :
    (IllegalWord 0x00000000 ∧ IllegalWord 0x00000007 ∧ IllegalWord 0x80000011 ∧ IllegalWord 0x40000005 ∧
      IllegalWord 0x00000104) ∧
    (withUnit activeUnit [writeCmd 0x80000011]).agenda = .host (.write 0x40000000 4 0x80000011) :: [] ∧
    admitted (withUnit activeUnit [writeCmd 0x80000011]) 0x40000000 4 = some (0, 0) ∧
    (withUnit activeUnit [writeCmd 0x80000011]).units[0]? = some activeUnit := by
  exact ⟨⟨.inl rfl, .inr (.inl (by decide)), .inr (.inr (.inl (by decide))), .inr (.inr (.inr (.inl (by decide)))),
    .inr (.inr (.inr (.inr (by decide))))⟩, rfl, rfl, rfl⟩

theorem witness_StepRunsTheDecodedCommand :
    (withUnit activeUnit [writeCmd 0x00000006]).agenda = .host (.write 0x40000000 4 0x00000006) :: [] ∧
    admitted (withUnit activeUnit [writeCmd 0x00000006]) 0x40000000 4 = some (0, 0) ∧
    decodeWord 0x00000006 = .ok (.disch false 0) := ⟨rfl, rfl, rfl⟩

theorem witness_PlacedCommandWordRunsOnTheSelectedUnit :
    (withUnit resetUnit).Inv ∧ (withUnit resetUnit).units[(withUnit resetUnit).sel]? = some resetUnit ∧
    decodeWord 0x00000001 = .ok (.init false) := ⟨reset_inv, rfl, by decide⟩

/-- Both clauses, at the ends of the window. -/
theorem witness_WindowAccessIsAdmittedExactlyWhenAlignedWord :
    (withUnit activeUnit).Inv ∧ (withUnit activeUnit).units[0]? = some activeUnit ∧
    ((0x000 < 0x200 ∧ 0x000 % 4 = 0) ∧ (0x1FC < 0x200 ∧ 0x1FC % 4 = 0)) ∧
    (¬ ((4 : Nat) = 4 ∧ 0x1FD % 4 = 0) ∧ ¬ ((2 : Nat) = 4 ∧ 0x000 % 4 = 0)) := ⟨active_inv, rfl, by decide, by decide⟩

/-- The addresses just below and just above the window. -/
theorem witness_AccessOutsideEveryWindowIsABusError :
    ∀ a ∈ [0x3FFFFFFF, 0x40000200], ∀ u ∈ (withUnit activeUnit).units, a < u.info.base ∨ u.info.base + 0x200 ≤ a := by
  decide

/-- The reads of registers, with a channel and the first and last reserved offsets. -/
theorem witness_FieldRegistersReadTheirFields :
    (withUnit activeUnit).Inv ∧ (withUnit activeUnit).units[0]? = some activeUnit ∧
    activeUnit.chans[3]? = some Channel.reset ∧ (withUnit activeUnit).params.channels ≤ 4 ∧
    (0x04C % 4 = 0 ∧ 0x0FC % 4 = 0 ∧ 0x0FC < 0x100) ∧
    (0x100 + 0x10 * (withUnit activeUnit).params.channels ≤ 0x140 ∧ 0x1FC % 4 = 0 ∧ 0x1FC < 0x200) :=
  ⟨active_inv, rfl, rfl, by decide, by decide, by decide⟩

theorem witness_StatusReadsItsFields :
    ((withUnit activeUnit).Inv ∧ (withUnit activeUnit).units[0]? = some activeUnit) ∧
    (Config.sampleParams.Valid ∧ Config.UnitsValid Config.sampleParams Config.sampleUnits) :=
  ⟨⟨active_inv, rfl⟩, sampleParams_valid, sampleUnits_valid⟩

theorem witness_FlagsReadsItsFields :
    ((withUnit activeUnit).Inv ∧ (withUnit activeUnit).units[0]? = some activeUnit ∧
      activeUnit.chans[3]? = some Channel.reset ∧ (withUnit activeUnit).params.channels ≤ 4) ∧
    (Config.sampleParams.Valid ∧ Config.UnitsValid Config.sampleParams Config.sampleUnits) :=
  ⟨⟨active_inv, rfl, rfl, by decide⟩, sampleParams_valid, sampleUnits_valid⟩

theorem witness_UnitInfoReadsTheConstants :
    (withUnit activeUnit).Inv ∧ (withUnit activeUnit).units[0]? = some activeUnit := ⟨active_inv, rfl⟩

theorem witness_ChannelStatusReadsItsFields :
    ((withUnit activeUnit).Inv ∧ (withUnit activeUnit).units[0]? = some activeUnit ∧
      activeUnit.chans[3]? = some Channel.reset) ∧
    (Config.sampleParams.Valid ∧ Config.UnitsValid Config.sampleParams Config.sampleUnits ∧
      3 < Config.sampleParams.channels) :=
  ⟨⟨active_inv, rfl, rfl⟩, sampleParams_valid, sampleUnits_valid, by decide⟩

theorem witness_ChannelConfigKeepsItsThreeBits :
    (withUnit activeUnit).Inv ∧ (withUnit activeUnit).units[0]? = some activeUnit ∧
    activeUnit.chans[3]? = some Channel.reset := ⟨active_inv, rfl, rfl⟩

/-- An ignored offset of each kind: read-only, reserved, a channel's read-only register, an absent channel's row. -/
theorem witness_RegisterWritesStoreOrAreIgnored :
    (withUnit activeUnit).Inv ∧ ∀ off ∈ [0x008, 0x0FC, 0x104, 0x140], off % 4 = 0 ∧ off < 0x200 ∧
      off ∉ [0x000, 0x004, 0x014, 0x018, 0x01C, 0x020] ∧
      ¬ (0x100 ≤ off ∧ off % 0x10 = 0 ∧ off < 0x100 + 0x10 * (withUnit activeUnit).params.channels) :=
  ⟨active_inv, by decide⟩

/-- Both states of INIT, and a machine with a unit. -/
theorem witness_InitMovesUninitializedToStopped :
    ((withUnit resetUnit).units[(withUnit resetUnit).sel]? = some resetUnit ∧ resetUnit.state = .uninitialized) ∧
    ((withUnit stoppedUnit).units[(withUnit stoppedUnit).sel]? = some stoppedUnit ∧
      stoppedUnit.state ≠ .uninitialized) ∧ Config.sampleUnits ≠ [] := by decide

/-- START from Stopped, Ready and Active accepted; rejected from Uninitialized, for mode 3 and for the period
`MAX_COUNT + 1`; accepted at the period `MAX_COUNT`. -/
theorem witness_StartProgramsTheUnit :
    (∀ u ∈ [stoppedUnit, readyUnit, activeUnit, { stoppedUnit with cfgPeriod := 65536 }],
      (withUnit u).units[(withUnit u).sel]? = some u ∧ u.state ≠ .uninitialized ∧
      (∀ c ∈ u.chans, c.cfgMode ≠ .reserved) ∧
      Mappable (withUnit u).params u.cfgFreq.toNat u.cfgPeriod.toNat) ∧
    ((withUnit resetUnit).units[0]? = some resetUnit ∧ resetUnit.state = .uninitialized) ∧
    (∃ c ∈ [{ Channel.reset with cfgMode := .reserved }], c.cfgMode = .reserved) ∧
    ¬ Mappable (withUnit stoppedUnit).params 1000000 65537 := by decide

theorem witness_StopClearsTheUnit :
    (∀ u ∈ [stoppedUnit, readyUnit, activeUnit],
      (withUnit u).units[(withUnit u).sel]? = some u ∧ u.state ≠ .uninitialized) ∧
    ((withUnit resetUnit).units[(withUnit resetUnit).sel]? = some resetUnit ∧ resetUnit.state = .uninitialized) ∧
    ((withUnit stoppedUnit).Inv ∧ stoppedUnit.state = .stopped) := ⟨by decide, by decide, stopped_inv, rfl⟩

theorem witness_StopRestoresTheStoppedUnit :
    ∃ t u', (withUnit stoppedUnit).Inv ∧ (withUnit stoppedUnit).units[0]? = some stoppedUnit ∧
      stoppedUnit.state = .stopped ∧ (withUnit activeUnit).Inv ∧
      (withUnit activeUnit).params = (withUnit stoppedUnit).params ∧ (withUnit activeUnit).sel = 0 ∧
      (withUnit activeUnit).units[0]? = some activeUnit ∧ activeUnit.info = stoppedUnit.info ∧
      activeUnit.state ≠ .uninitialized ∧ exec (.stop false) (withUnit activeUnit) = .next t ∧ t.units[0]? = some u' :=
  ⟨_, _, stopped_inv, rfl, rfl, active_inv, rfl, rfl, rfl, rfl, by decide, rfl, rfl⟩

/-- CHPER in every STATE, and at both ends of the period range. -/
theorem witness_ChperWritesTheShadowReload :
    (∀ u ∈ [resetUnit, stoppedUnit], (withUnit u).units[(withUnit u).sel]? = some u ∧
      (u.state = .uninitialized ∨ u.state = .stopped)) ∧
    (∀ u ∈ [readyUnit, activeUnit], (withUnit u).units[(withUnit u).sel]? = some u ∧
      (u.state = .ready ∨ u.state = .active) ∧ Mappable (withUnit u).params u.actFreq.toNat 1 ∧
      Mappable (withUnit u).params u.actFreq.toNat 65536 ∧ ¬ Mappable (withUnit u).params u.actFreq.toNat 0 ∧
      ¬ Mappable (withUnit u).params u.actFreq.toNat 65537) ∧
    (withUnit activeUnit).Inv := ⟨by decide, by decide, active_inv⟩

/-- ENCH in every STATE, with the last channel that exists and the first that does not. -/
theorem witness_EnchProgramsTheChannelShadows :
    (∀ u ∈ [resetUnit, stoppedUnit], (withUnit u).units[(withUnit u).sel]? = some u ∧
      (u.state = .uninitialized ∨ u.state = .stopped)) ∧
    (∀ u ∈ [readyUnit, activeUnit], (withUnit u).units[(withUnit u).sel]? = some u ∧
      (u.state = .ready ∨ u.state = .active) ∧ (withUnit u).params.channels ≤ 4 ∧ 3 < (withUnit u).params.channels ∧
      u.chans[3]? = some Channel.reset) := by decide

/-- DISCH in every STATE, with the first channel that exists and the last a word can name. -/
theorem witness_DischClearsTheChannelPolarity :
    (∀ u ∈ [resetUnit, stoppedUnit], (withUnit u).units[(withUnit u).sel]? = some u ∧
      (u.state = .uninitialized ∨ u.state = .stopped)) ∧
    (∀ u ∈ [readyUnit, activeUnit], (withUnit u).units[(withUnit u).sel]? = some u ∧
      (u.state = .ready ∨ u.state = .active) ∧ (withUnit u).params.channels ≤ 255 ∧ 0 < (withUnit u).params.channels ∧
      (u.chans[0]?).isSome) := by decide

theorem witness_ChannelCommandsAlwaysComplete :
    (withUnit readyUnit).Inv ∧ (withUnit readyUnit).units[(withUnit readyUnit).sel]? = some readyUnit ∧
    (readyUnit.state = .ready ∨ readyUnit.state = .active) ∧ 3 < (withUnit readyUnit).params.channels :=
  ⟨ready_inv, rfl, by decide, by decide⟩

theorem witness_HandlerContextOnlyMattersToLifecycle :
    (withUnit activeUnit).units[(withUnit activeUnit).sel]? = some activeUnit := rfl

theorem witness_PeriodAndChannelCommandsKeepApart :
    (withUnit activeUnit).units[(withUnit activeUnit).sel]? = some activeUnit ∧
    (∃ t u', exec (.chper false) (withUnit activeUnit) = .next t ∧ t.units[(withUnit activeUnit).sel]? = some u') ∧
    (∃ t u', exec (.ench true 3) (withUnit activeUnit) = .next t ∧ t.units[(withUnit activeUnit).sel]? = some u') ∧
    (∃ t u', exec (.disch true 3) (withUnit activeUnit) = .next t ∧ t.units[(withUnit activeUnit).sel]? = some u') :=
  ⟨rfl, ⟨_, _, rfl, rfl⟩, ⟨_, _, rfl, rfl⟩, ⟨_, _, rfl, rfl⟩⟩

/-- Each outcome of the order, on some word and unit. -/
theorem witness_CommandReportsTheFirstOutcomeInOrder :
    (withUnit activeUnit).units[(withUnit activeUnit).sel]? = some activeUnit ∧
    expectedReport Config.sampleParams activeUnit 0x80000101 = .code .illegal ∧
    expectedReport Config.sampleParams resetUnit 0x80000002 = .fault (.reentrantLifecycle .start) ∧
    expectedReport Config.sampleParams stoppedUnit 0x00000001 = .fault .doubleInit ∧
    expectedReport Config.sampleParams stoppedUnit 0x0000FF05 = .code .invstate ∧
    expectedReport Config.sampleParams activeUnit 0x00000405 = .code .invch ∧
    expectedReport Config.sampleParams { readyUnit with arg := 0 } 0x00000004 = .code .config ∧
    expectedReport Config.sampleParams stoppedUnit 0x00000002 = .code .ok := by decide

theorem witness_ErrorsChangeOnlyErr :
    (withUnit activeUnit).units[(withUnit activeUnit).sel]? = some activeUnit ∧
    (∃ t, executeCommand 0x00000405 (withUnit activeUnit) = .next t) ∧
    (∃ t, executeCommand 0x00000005 (withUnit activeUnit) = .next t) := ⟨rfl, ⟨_, rfl⟩, ⟨_, rfl⟩⟩

/-- Every command goes on somewhere. -/
theorem witness_CommandsFrame :
    (∃ t, exec (.init false) (twoUnits resetUnit) = .next t) ∧ (∃ t, exec (.start false) (twoUnits stoppedUnit) = .next t) ∧
    (∃ t, exec (.stop false) (twoUnits activeUnit) = .next t) ∧ (∃ t, exec (.chper true) (twoUnits activeUnit) = .next t) ∧
    (∃ t, exec (.ench true 1) (twoUnits readyUnit) = .next t) ∧ (∃ t, exec (.disch true 0) (twoUnits activeUnit) = .next t) ∧
    (twoUnits activeUnit).units[(twoUnits activeUnit).sel]? = some activeUnit :=
  ⟨⟨_, rfl⟩, ⟨_, rfl⟩, ⟨_, rfl⟩, ⟨_, rfl⟩, ⟨_, rfl⟩, ⟨_, rfl⟩, rfl⟩

/-- A command that succeeds and one that does not. -/
theorem witness_CommandsMoveStateByTheTable :
    ∃ t u', (withUnit readyUnit).units[(withUnit readyUnit).sel]? = some readyUnit ∧
      exec (.ench false 1) (withUnit readyUnit) = .next t ∧ t.units[(withUnit readyUnit).sel]? = some u' ∧
      u'.err = .ok ∧ ∃ t₂ u₂, exec (.ench false 4) (withUnit readyUnit) = .next t₂ ∧
        t₂.units[(withUnit readyUnit).sel]? = some u₂ ∧ u₂.err = .invch :=
  ⟨_, _, rfl, rfl, rfl, rfl, _, _, rfl, rfl, rfl⟩

theorem witness_OnlyCommandsChangeStateAndErr :
    ∃ t u', step (withUnit { readyUnit with err := .illegal } [writeCmd 0x00000003]) = .next t ∧
      t.units[0]? = some u' ∧ u'.state ≠ readyUnit.state ∧ u'.err ≠ .illegal :=
  goesOn (fun u' => u'.state ≠ readyUnit.state ∧ u'.err ≠ .illegal) (by decide)

theorem witness_ComputeTimebaseIsTheExactDivision : 1 ≤ Config.sampleParams.inputClockHz := by decide

theorem witness_ComputeChannelRegisterSaturates : (1000 : Nat) ≤ 1000 ∧ (1000 : Nat) < 1001 := by decide

/-- Both clauses, the second at PSC_CNT = PSC. -/
theorem witness_ClkDividesTheInputClock :
    (withUnit readyUnit [.clk 0]).agenda = .clk 0 :: [] ∧ (withUnit readyUnit [.clk 0]).units[0]? = some readyUnit ∧
    readyUnit.clken = true ∧ readyUnit.cen = true ∧ readyUnit.pscCnt < readyUnit.psc ∧
    activeUnit.clken = true ∧ activeUnit.cen = true ∧ activeUnit.psc ≤ activeUnit.pscCnt := by decide

theorem witness_EventOfADisabledAgentChangesNothing :
    ((withUnit stoppedUnit [.clk 0]).agenda = .clk 0 :: [] ∧ stoppedUnit.clken = false) ∧
    ((withUnit readyUnit [.dispatch 0]).agenda = .dispatch 0 :: [] ∧ readyUnit.ie = true ∧
      (readyUnit.uif = false ∧ readyUnit.ovr = false ∧ ∀ c ∈ readyUnit.chans, c.ccif = false)) ∧
    stoppedUnit.ie = false := by decide

theorem witness_TickCountsOrWraps : readyUnit.cnt ≠ readyUnit.arr ∧ activeUnit.cnt = activeUnit.arr := by decide

/-- Each flag rises in some step. -/
theorem witness_EventsAreRaisedOnlyByTicks :
    (∃ t u', step (withUnit { activeUnit with uif := false } [.clk 0]) = .next t ∧ t.units[0]? = some u' ∧
      u'.uif = true) ∧
    (∃ t u', step (withUnit activeUnit [.clk 0]) = .next t ∧ t.units[0]? = some u' ∧ activeUnit.ovr = false ∧
      u'.ovr = true) ∧
    (∃ t u', step (withUnit { activeUnit with chans := [{ Channel.reset with enabled := true }] } [.clk 0]) = .next t ∧
      t.units[0]? = some u' ∧ u'.chans[0]?.map Channel.ccif = some true) :=
  ⟨goesOn (fun u' => u'.uif = true) (by decide), goesOn (fun u' => activeUnit.ovr = false ∧ u'.ovr = true) (by decide),
    goesOn (fun u' => u'.chans[0]?.map Channel.ccif = some true) (by decide)⟩

theorem witness_OverrunIsSticky :
    ∃ t u', step (withUnit { activeUnit with ovr := true } [.dispatch 0]) = .next t ∧ t.units[0]? = some u' ∧
      u'.ovr = false := goesOn (fun u' => u'.ovr = false) (by decide)

/-- Each clause, on both sides of the compare. -/
theorem witness_PinFollowsTheCompareAndPolarity :
    (stoppedUnit.chans[0]?.isSome ∧ stoppedUnit.clken = false) ∧
    (readyUnit.clken = true ∧ readyUnit.chans[2]?.map Channel.oe = some false) ∧
    (activeUnit.chans[0]?.map (fun c => (c.oe, c.pol)) = some (true, false)) ∧
    (activeUnit.chans[0]?.map Channel.ccr = some 500 ∧ 499 < 500) ∧
    (readyUnit.chans[1]?.map (fun c => (c.oe, c.pol)) = some (true, true)) := by decide

/-- A driven ActiveHigh channel and a driven ActiveLow one, the latter with a compare value at the end of the period. -/
theorem witness_DutyIsTheCompareValue :
    (∃ c, activeUnit.chans[0]? = some c ∧ activeUnit.clken = true ∧ c.oe = true ∧ c.pol = false) ∧
    (∃ c, readyUnit.chans[1]? = some c ∧ readyUnit.clken = true ∧ c.oe = true ∧ c.pol = true) ∧
    ({ readyUnit with chans := [{ Channel.reset with oe := true, pol := true, ccr := 1000 }] } : PwmUnit).chans[0]? =
      some { Channel.reset with oe := true, pol := true, ccr := readyUnit.arr + 1 } :=
  ⟨⟨_, rfl, rfl, rfl, rfl⟩, ⟨_, rfl, rfl, rfl, rfl⟩, rfl⟩

theorem witness_PrescalerMakesOneTickOfPscPlusOneCycles :
    (withUnit readyUnit (List.replicate 72 (.clk 0) ++ [.dispatch 0])).agenda =
      List.replicate (readyUnit.psc + 1) (.clk 0) ++ [.dispatch 0] ∧
    readyUnit.clken = true ∧ readyUnit.cen = true ∧ readyUnit.pscCnt = 0 := by decide

/-- A wrap and a START that change the waveform. -/
theorem witness_WaveformChangesOnlyAtAWrap :
    (∃ t u', step (withUnit { activeUnit with arrSh := 1999 } [.clk 0]) = .next t ∧ t.units[0]? = some u' ∧
      u'.waveform ≠ activeUnit.waveform) ∧
    (∃ t u', step (withUnit activeUnit [writeCmd 0x00000002]) = .next t ∧ t.units[0]? = some u' ∧
      u'.waveform ≠ activeUnit.waveform) :=
  ⟨goesOn (fun u' => u'.waveform ≠ activeUnit.waveform) (by decide),
    goesOn (fun u' => u'.waveform ≠ activeUnit.waveform) (by decide)⟩

theorem witness_DispatchNotifiesAndClears :
    (withUnit activeUnit [.dispatch 0]).agenda = .dispatch 0 :: [] ∧
    (withUnit activeUnit [.dispatch 0]).units[0]? = some activeUnit ∧ activeUnit.ie = true ∧
    (activeUnit.uif = true ∨ activeUnit.ovr = true ∨ ∃ c ∈ activeUnit.chans, c.ccif = true) := by decide

/-- A DISPATCH with every kind of event pending, and each side of each gate. -/
theorem witness_NotificationsAreGatedByCallbacks :
    let u := { activeUnit with ovr := true }
    (withUnit u [.dispatch 0]).agenda = .dispatch 0 :: [] ∧ (withUnit u [.dispatch 0]).units[0]? = some u ∧
    u.ie = true ∧ (u.uif = true ∨ u.ovr = true ∨ ∃ c ∈ u.chans, c.ccif = true) ∧
    (u.uif = true ∧ u.ovr = true ∧ u.actPcb = true) ∧
    (∃ c, u.chans[0]? = some c ∧ c.ccif = true ∧ c.enabled = true ∧ c.actCcb = true) ∧
    (activeUnit.ie = true ∧ activeUnit.uif = true ∧ activeUnit.ovr = false) ∧
    (∃ c, activeUnit.chans[2]? = some c ∧ c.actCcb = true ∧ c.ccif = false) :=
  ⟨rfl, rfl, rfl, .inl rfl, by decide, ⟨_, rfl, rfl, rfl, rfl⟩, by decide, ⟨_, rfl, rfl, rfl⟩⟩

theorem witness_NotifyOnlyGrowsAndOnlyByDispatch :
    (∃ t u', step (withUnit activeUnit [.dispatch 0]) = .next t ∧ t.units[0]? = some u' ∧
      u'.notify ≠ activeUnit.notify) ∧ State.reset.units ≠ [] := 
  ⟨goesOn (fun u' => u'.notify ≠ activeUnit.notify) (by decide), by decide⟩

theorem witness_NotificationWordHasItsFields :
    ({ unitId := 1, kind := .channel, ch := 255 } : Notification).ch < 256 := by decide

/-- One step of each of the three kinds that changes the unit at position 0, beside another unit. -/
theorem witness_AUnitChangesOnlyByItsOwnSteps :
    ∀ e ∈ [.clk 0, .dispatch 0, writeCmd 0x00000003],
      ∃ t, step (twoUnits activeUnit [e]) = .next t ∧ t.units[0]? ≠ (twoUnits activeUnit [e]).units[0]? := by
  simp only [List.forall_mem_cons, List.not_mem_nil, false_implies, implies_true, and_true]
  exact ⟨⟨_, rfl, by decide⟩, ⟨_, rfl, by decide⟩, ⟨_, rfl, by decide⟩⟩

/-- Two machines that differ in the other unit. -/
theorem witness_UnitResultDependsOnlyOnTheUnit :
    let s₁ := twoUnits activeUnit [.clk 0]
    let s₂ := { s₁ with units := s₁.units.modify 1 fun u => { u with arg := 7 } }
    s₁.params = s₂.params ∧ s₁.units.map PwmUnit.info = s₂.units.map PwmUnit.info ∧ s₁.units[0]? = s₂.units[0]? ∧
    s₁ ≠ s₂ ∧ s₁.nextEvent = s₂.nextEvent ∧ (∃ t, step s₁ = .next t) ∧ ∃ t, step s₂ = .next t :=
  ⟨rfl, rfl, rfl, by decide, rfl, ⟨_, rfl⟩, ⟨_, rfl⟩⟩

theorem witness_ConstantsNeverChange :
    ∃ t, step (twoUnits activeUnit [writeCmd 0x00000003]) = .next t := ⟨_, rfl⟩

/-- A step of each kind that keeps the invariant, from a state that meets it. -/
theorem witness_EveryStepKeepsTheInvariant :
    ∀ e ∈ [.clk 0, .dispatch 0, writeCmd 0x00000004, .host (.read 0x40000030 4)],
      (withUnit activeUnit [e]).Inv ∧ ∃ t, step (withUnit activeUnit [e]) = .next t := by
  simp only [List.forall_mem_cons, List.not_mem_nil, false_implies, implies_true, and_true]
  exact ⟨⟨withUnit_inv _ rfl activeUnit_inv, _, rfl⟩, ⟨withUnit_inv _ rfl activeUnit_inv, _, rfl⟩,
    ⟨withUnit_inv _ rfl activeUnit_inv, _, rfl⟩, ⟨withUnit_inv _ rfl activeUnit_inv, _, rfl⟩⟩

/-- Two units with valid constants. -/
theorem witness_ResetMeetsTheInvariant :
    Config.sampleParams.Valid ∧
    Config.UnitsValid Config.sampleParams [resetUnit.info, { id := 2, base := 0x40000200, prio := 0 }] :=
  ⟨sampleParams_valid, twoInfos_valid⟩

theorem witness_ResetClearsEveryField :
    Config.sampleParams.Valid ∧ Config.UnitsValid Config.sampleParams Config.sampleUnits ∧
    Config.sampleUnits[0]? = some resetUnit.info := ⟨sampleParams_valid, sampleUnits_valid, rfl⟩

theorem witness_OperandLinesRunAsArgThenCommand :
    let s := withUnit activeUnit ((Line.ench false 255 300).expand 0 0x40000000 ++ [.clk 0])
    s.Inv ∧ s.units[s.sel]? = some activeUnit ∧ 255 < 256 ∧
    s.agenda = (Line.ench false 255 300).expand s.sel activeUnit.info.base ++ [.clk 0] ∧
    (withUnit activeUnit ((Line.chper true 2000).expand 0 0x40000000)).agenda =
      (Line.chper true 2000).expand 0 activeUnit.info.base ++ [] :=
  ⟨withUnit_inv _ rfl activeUnit_inv, rfl, by decide, rfl, rfl⟩

end Sys2Proof.Tests
end

section
/-! PROOFS. The statements of 10_state.md about STATUS, FLAGS, CH_STAT, NOTIFY and reset. First the fields of each word,
then the machine right after reset, then what a step does to NOTIFY; the obligations are assembled from these. -/

namespace Sys2Proof

/-! ## One bit of a packed word -/

/-- A bit of a word is `b` where the digit of its number at that place is. -/
theorem bitAt_ofNat_of_digit {n i : Nat} {b : Bool} (hi : i < 32) (h : n / 2 ^ i % 2 = b.toNat) :
    bitAt (BitVec.ofNat 32 n) i = b := by
  rw [bitAt_ofNat n i hi, h]
  cases b <;> rfl

end Sys2Proof

namespace Sys2Proof.Machine

open Sys2Proof.Config (Params UnitInfo)

/-! ## The fields of STATUS, FLAGS and CH_STAT -/

/-- STATUS field by field (10_state.md R41). -/
theorem PwmUnit.statusWord_fields (u : PwmUnit) :
    bitField u.statusWord 1 0 = u.state.code ∧ bitField u.statusWord 3 2 = 0 ∧
      bitField u.statusWord 7 4 = u.err.code ∧ bitAt u.statusWord 8 = u.cfgv ∧ bitAt u.statusWord 9 = u.clken ∧
      bitAt u.statusWord 10 = u.cen ∧ bitAt u.statusWord 11 = u.ie ∧ bitField u.statusWord 31 12 = 0 := by
  have hstate := u.state.code_lt
  have herr := u.err.code_lt
  have hcfgv := u.cfgv.toNat_le
  have hclken := u.clken.toNat_le
  have hcen := u.cen.toNat_le
  have hie := u.ie.toNat_le
  unfold PwmUnit.statusWord
  refine ⟨?state, ?low, ?err, bitAt_ofNat_of_digit (by decide) ?_, bitAt_ofNat_of_digit (by decide) ?_,
    bitAt_ofNat_of_digit (by decide) ?_, bitAt_ofNat_of_digit (by decide) ?_, ?high⟩
  case state | low | err | high => rw [bitField_ofNat _ _ _ (by omega)]; omega
  all_goals omega

/-- CH_STAT field by field (10_state.md R45). -/
theorem Channel.statWord_fields (c : Channel) :
    bitAt c.statWord 0 = c.oe ∧ bitAt c.statWord 1 = c.pol ∧ bitAt c.statWord 2 = c.oeSh ∧
      bitAt c.statWord 3 = c.polSh ∧ bitField c.statWord 5 4 = c.actMode.code ∧ bitAt c.statWord 6 = c.actCcb ∧
      bitField c.statWord 31 7 = 0 := by
  have hoe := c.oe.toNat_le
  have hpol := c.pol.toNat_le
  have hoeSh := c.oeSh.toNat_le
  have hpolSh := c.polSh.toNat_le
  have hmode := c.actMode.code_lt
  have hccb := c.actCcb.toNat_le
  unfold Channel.statWord
  refine ⟨bitAt_ofNat_of_digit (by decide) ?_, bitAt_ofNat_of_digit (by decide) ?_,
    bitAt_ofNat_of_digit (by decide) ?_, bitAt_ofNat_of_digit (by decide) ?_, ?mode,
    bitAt_ofNat_of_digit (by decide) ?_, ?high⟩
  case mode | high => rw [bitField_ofNat _ _ _ (by omega)]; omega
  all_goals omega

/-- With at most 16 channels the compare flags stay below UIF (10_state.md R42). -/
theorem PwmUnit.ccifMask_lt {u : PwmUnit} (hlen : u.chans.length ≤ 16) :
    maskOf (u.chans.map Channel.ccif) < 2 ^ 16 := by
  have hmask := maskOf_lt (u.chans.map Channel.ccif)
  rw [List.length_map] at hmask
  exact hmask.trans_le (Nat.pow_le_pow_right (by decide) hlen)

/-- The low half of FLAGS is the compare flags of the channels, 0 where there is none (10_state.md R42). -/
theorem PwmUnit.flagsWord_low {u : PwmUnit} (hlen : u.chans.length ≤ 16) {i : Nat} (hi : i < 16) :
    bitAt u.flagsWord i = ((u.chans[i]?).map Channel.ccif).getD false := by
  have hsplit : maskOf (u.chans.map Channel.ccif) + u.uif.toNat * 2 ^ 16 + u.ovr.toNat * 2 ^ 17 =
      2 ^ 16 * (u.uif.toNat + 2 * u.ovr.toNat) + maskOf (u.chans.map Channel.ccif) := by omega
  rw [bitAt, PwmUnit.flagsWord, BitVec.getLsbD_ofNat, hsplit, Nat.testBit_two_pow_mul_add _ (ccifMask_lt hlen),
    if_pos hi, maskOf_testBit, List.getElem?_map]
  simp only [show i < 32 by omega, decide_true, Bool.true_and]

/-- The high half of FLAGS (10_state.md R42). -/
theorem PwmUnit.flagsWord_high {u : PwmUnit} (hlen : u.chans.length ≤ 16) :
    bitAt u.flagsWord 16 = u.uif ∧ bitAt u.flagsWord 17 = u.ovr ∧ bitField u.flagsWord 31 18 = 0 := by
  have hmask := ccifMask_lt hlen
  have huif := u.uif.toNat_le
  have hovr := u.ovr.toNat_le
  unfold PwmUnit.flagsWord
  refine ⟨bitAt_ofNat_of_digit (by decide) ?_, bitAt_ofNat_of_digit (by decide) ?_, ?rest⟩
  case rest => rw [bitField_ofNat _ _ _ (by omega)]; omega
  all_goals omega

/-- A unit has a channel record for each channel number below CHANNELS, and 16 at most. -/
theorem PwmUnit.Inv.chans_length_le {p : Params} {u : PwmUnit} (hu : u.Inv p) (hp : p.Valid) :
    u.chans.length ≤ 16 :=
  hu.channels.trans_le hp.channels.2

/-! ## Where CH_STAT is -/

/-- A register of an existing channel is read off that channel. -/
theorem PwmUnit.channelWord_of_get {u : PwmUnit} {i : Nat} {c : Channel} (h : u.chans[i]? = some c)
    (view : Channel → Word) : u.channelWord i view = view c := by
  simp [PwmUnit.channelWord, h]

/-- CH_STAT(i) of an existing channel reads that channel's word (10_state.md R40, R45). -/
theorem readReg_chStat {p : Params} {u : PwmUnit} {i : Nat} {c : Channel} (hi : i < p.channels)
    (hc : u.chans[i]? = some c) : readReg p u (regAt p (0x100 + 0x10 * i + 0xC)) = c.statWord := by
  rw [regAt_channel hi (by decide)]
  exact PwmUnit.channelWord_of_get hc _

/-- CH_STAT(i) of an existing channel is at an aligned offset of the window (10_state.md R40). -/
theorem chStat_offset_ok {p : Params} {i : Nat} (hp : p.Valid) (hi : i < p.channels) :
    0x100 + 0x10 * i + 0xC < Config.windowBytes ∧ (0x100 + 0x10 * i + 0xC) % 4 = 0 := by
  have hmax := hp.channels.2
  unfold Config.windowBytes
  omega

/-! ## Pins and UNIT_INFO -/

/-- With its clock gate off a unit drives no pin (43_counter_output.md R166). -/
theorem PwmUnit.pin_eq_z_of_clken {u : PwmUnit} (h : u.clken = false) (i : Nat) : u.pin i = .z := by
  unfold PwmUnit.pin
  cases u.chans[i]? <;> simp [h]

/-- UNIT_INFO with no truncation: valid parameters fit its fields (10_state.md R44). -/
theorem PwmUnit.unitInfoWord_of_valid {p : Params} (hp : p.Valid) (u : PwmUnit) :
    u.unitInfoWord p = BitVec.ofNat 32
      (u.info.id.toNat + 0x100 * p.channels + 0x10000 * p.counterWidth + 0x1000000 * u.info.prio.toNat) := by
  have hchannels := hp.channels
  have hwidth := hp.counterWidth
  unfold PwmUnit.unitInfoWord
  congr 1
  omega

/-! ## The machine right after reset -/

theorem Channel.reset_quiet : Channel.reset.Quiet := by constructor <;> rfl

theorem PwmUnit.mem_reset_chans {p : Params} {i : UnitInfo} {c : Channel} (hc : c ∈ (PwmUnit.reset p i).chans) :
    c = Channel.reset :=
  List.eq_of_mem_replicate hc

theorem PwmUnit.reset_chans_length (p : Params) (i : UnitInfo) : (PwmUnit.reset p i).chans.length = p.channels :=
  List.length_replicate

theorem PwmUnit.reset_chans_get {p : Params} (info : UnitInfo) {i : Nat} (hi : i < p.channels) :
    (PwmUnit.reset p info).chans[i]? = some Channel.reset :=
  List.getElem?_replicate_of_lt hi

/-- Every timer, latch and flag field is 0 after reset (10_state.md R47, R49). -/
theorem PwmUnit.reset_quiet (p : Params) (i : UnitInfo) : (PwmUnit.reset p i).Quiet := by
  constructor
  case chans => exact fun c hc => mem_reset_chans hc ▸ Channel.reset_quiet
  all_goals rfl

/-- A unit after reset meets the invariant: it is Uninitialized, and quiet. -/
theorem PwmUnit.reset_inv (p : Params) (i : UnitInfo) : (PwmUnit.reset p i).Inv p where
  channels := reset_chans_length p i
  idle _ := reset_quiet p i
  running h := nomatch h

theorem State.resetWith_infos (p : Params) (us : List UnitInfo) :
    (State.resetWith p us).units.map PwmUnit.info = us := by
  simp [State.resetWith, PwmUnit.reset, Function.comp_def]

theorem State.mem_resetWith_units {p : Params} {us : List UnitInfo} {u : PwmUnit}
    (hu : u ∈ (State.resetWith p us).units) : ∃ i, u = PwmUnit.reset p i := by
  obtain ⟨i, -, rfl⟩ := List.mem_map.mp hu
  exact ⟨i, rfl⟩

/-- The machine after reset meets the invariant, for all parameters and units in their ranges. -/
theorem State.resetWith_inv {p : Params} {us : List UnitInfo} (hp : p.Valid) (hus : Config.UnitsValid p us) :
    (State.resetWith p us).Inv where
  params := hp
  infos := (State.resetWith_infos p us).symm ▸ hus
  units u hu := by
    obtain ⟨i, rfl⟩ := mem_resetWith_units hu
    exact PwmUnit.reset_inv p i

/-- A read placed right after reset returns the register's word in the unit after reset. -/
theorem State.resetWith_readsAs {p : Params} {us : List UnitInfo} (hp : p.Valid) (hus : Config.UnitsValid p us)
    {k off : Nat} {w : Word} (ho : off < Config.windowBytes) (h4 : off % 4 = 0)
    (hw : ∀ i, us[k]? = some i → readReg p (PwmUnit.reset p i) (regAt p off) = w) :
    (State.resetWith p us).ReadsAs k off w := by
  intro u rest hu
  have hmap : (us.map (PwmUnit.reset p))[k]? = some u := hu
  rw [List.getElem?_map, Option.map_eq_some_iff] at hmap
  obtain ⟨i, hi, rfl⟩ := hmap
  exact readsAs_of_readReg (State.resetWith_inv hp hus) hu ho h4 (hw i hi) _ rest hu

theorem maskOf_replicate_false (n : Nat) : maskOf (List.replicate n false) = 0 := by
  induction n with
  | zero => rfl
  | succ n ih => simp [List.replicate_succ, maskOf, ih]

/-- STATUS is 0 after reset (10_state.md R41). -/
theorem PwmUnit.reset_statusWord (p : Params) (i : UnitInfo) : (PwmUnit.reset p i).statusWord = 0 := by
  simp [PwmUnit.statusWord, PwmUnit.reset, DriverState.code, ErrCode.code]

/-- FLAGS is 0 after reset (10_state.md R42). -/
theorem PwmUnit.reset_flagsWord (p : Params) (i : UnitInfo) : (PwmUnit.reset p i).flagsWord = 0 := by
  simp [PwmUnit.flagsWord, PwmUnit.reset, Channel.reset, maskOf_replicate_false]

/-! ## NOTIFY in a step -/

theorem PwmUnit.clk_notify (u : PwmUnit) : u.clk.notify = u.notify := by
  obtain ⟨-, h⟩ | ⟨-, -, h⟩ | ⟨-, -, h⟩ := u.clk_cases
  · rw [h]
  · rw [h]
  · obtain ⟨cnt, arr, uif, ovr, chans, ht⟩ := PwmUnit.tick_frame { u with pscCnt := 0 }
    rw [h, ht]

theorem writeReg_notify (v : Word) (u : PwmUnit) (r : RegName) : (writeReg v u r).notify = u.notify := by
  obtain ⟨_, _, _, _, _, _, h, -⟩ := writeReg_frame v u r
  rw [h]

theorem PwmUnit.notify_prefix_dispatch (u : PwmUnit) : u.notify <+: u.dispatch.notify := by
  obtain ⟨-, h⟩ | ⟨-, h⟩ := u.dispatch_cases <;> rw [h]
  exact List.prefix_append _ _

/-- A step keeps a unit's NOTIFY, unless it is that unit's DISPATCH, which appends to it (10_state.md R38). -/
theorem Did.notify {s : State} {k : Nat} {u u' : PwmUnit} (h : Did s k u u') :
    u'.notify = u.notify ∨ s.nextEvent = .dispatch k ∧ u.notify <+: u'.notify := by
  cases h with
  | same => exact .inl rfl
  | clk => exact .inl u.clk_notify
  | dispatch he => exact .inr ⟨he, u.notify_prefix_dispatch⟩
  | store => exact .inl (writeReg_notify _ _ _)
  | illegal => exact .inl rfl
  | command _ hc =>
    obtain ⟨-, -, hnotify, -⟩ := unitCommand_frame hc
    exact .inl hnotify

/-! ## The obligations -/

/-- Settles O12: STATUS is the packed word of its fields, each read back at its place. -/
theorem statusReadsItsFields : Obligations.StatusReadsItsFields := by
  unfold Obligations.StatusReadsItsFields
  constructor
  · intro s k u hI hk
    obtain ⟨hstate, hlow, herr, hbits⟩ := u.statusWord_fields
    exact ⟨u.statusWord, readsAs_of_readReg hI hk (by decide) (by decide) rfl, hstate.trans u.state.code_eq, hlow,
      herr.trans u.err.code_eq, hbits⟩
  · intro p us k hp hus
    exact State.resetWith_readsAs hp hus (by decide) (by decide) fun i _ => PwmUnit.reset_statusWord p i

/-- Settles O13: FLAGS is the mask of the compare flags below UIF and OVR, and a read leaves the units as they are. -/
theorem flagsReadsItsFields : Obligations.FlagsReadsItsFields := by
  unfold Obligations.FlagsReadsItsFields
  constructor
  · intro s k u hI hk
    have hu := hI.units u (List.mem_of_getElem? hk)
    have hlen := hu.chans_length_le hI.params
    refine ⟨u.flagsWord, readsAs_of_readReg hI hk (by decide) (by decide) rfl, ?_, ?_, PwmUnit.flagsWord_high hlen⟩
    · intro i c hc
      obtain ⟨hi, -⟩ := List.getElem?_eq_some_iff.mp hc
      rw [PwmUnit.flagsWord_low hlen (hi.trans_le hlen), hc]
      rfl
    · intro i hch hi
      have hnone : u.chans[i]? = none := List.getElem?_eq_none (hu.channels.trans_le hch)
      rw [PwmUnit.flagsWord_low hlen hi, hnone]
      rfl
  · intro p us k hp hus
    exact State.resetWith_readsAs hp hus (by decide) (by decide) fun i _ => PwmUnit.reset_flagsWord p i

/-- Settles O15: CH_STAT(i) is the packed word of channel i's fields, each read back at its place. -/
theorem channelStatusReadsItsFields : Obligations.ChannelStatusReadsItsFields := by
  unfold Obligations.ChannelStatusReadsItsFields
  constructor
  · intro s k u i c hI hk hc
    obtain ⟨hlt, -⟩ := List.getElem?_eq_some_iff.mp hc
    have hi : i < s.params.channels := (hI.units u (List.mem_of_getElem? hk)).channels ▸ hlt
    obtain ⟨ho, h4⟩ := chStat_offset_ok hI.params hi
    obtain ⟨hoe, hpol, hoeSh, hpolSh, hmode, hrest⟩ := c.statWord_fields
    exact ⟨c.statWord, readsAs_of_readReg hI hk ho h4 (readReg_chStat hi hc), hoe, hpol, hoeSh, hpolSh,
      hmode.trans c.actMode.code_eq, hrest⟩
  · intro p us k i hp hus hi
    obtain ⟨ho, h4⟩ := chStat_offset_ok hp hi
    exact State.resetWith_readsAs hp hus ho h4 fun info _ => readReg_chStat hi (PwmUnit.reset_chans_get info hi)

/-- Settles O46: of all that a step can do to a unit, only its own DISPATCH touches NOTIFY, and it appends. -/
theorem notifyOnlyGrowsAndOnlyByDispatch : Obligations.NotifyOnlyGrowsAndOnlyByDispatch := by
  unfold Obligations.NotifyOnlyGrowsAndOnlyByDispatch
  constructor
  · intro s t k u u' hstep hk hk'
    obtain heq | ⟨he, hprefix⟩ := (did_of_step hstep hk hk').notify
    · exact ⟨heq ▸ List.prefix_refl _, fun hne => absurd heq hne⟩
    · exact ⟨hprefix, fun _ => he⟩
  · intro p us u hu
    obtain ⟨i, rfl⟩ := State.mem_resetWith_units hu
    rfl

/-- Settles O55: a unit after reset is quiet with every host field 0, and its constant registers read their values. -/
theorem resetClearsEveryField : Obligations.ResetClearsEveryField := by
  unfold Obligations.ResetClearsEveryField
  intro p us hp hus
  refine ⟨State.resetWith_infos p us, ?fields, ?constants⟩
  case fields =>
    intro u hu
    obtain ⟨i, rfl⟩ := State.mem_resetWith_units hu
    refine ⟨PwmUnit.reset_quiet p i, rfl, rfl, rfl, rfl, rfl, rfl, rfl, rfl, PwmUnit.pin_eq_z_of_clken rfl,
      PwmUnit.reset_chans_length p i, ?_⟩
    intro c hc
    obtain rfl := PwmUnit.mem_reset_chans hc
    exact ⟨rfl, rfl⟩
  case constants =>
    intro k i hk
    constructor
    · refine State.resetWith_readsAs hp hus (by decide) (by decide) fun j hj => ?_
      obtain rfl : i = j := Option.some.inj (hk.symm.trans hj)
      exact PwmUnit.unitInfoWord_of_valid hp (PwmUnit.reset p i)
    · refine State.resetWith_readsAs hp hus (by decide) (by decide) fun _ _ => ?_
      have hwidth : p.pscWidth < 2 ^ 8 := by have := hp.pscWidth; omega
      exact congrArg (BitVec.ofNat 32) (Nat.mod_eq_of_lt hwidth)

end Sys2Proof.Machine
end

section
/-! PROOFS. The statement of 20_memory.md about which accesses to a unit's window are admitted. First what an access to a
window comes to, then what a placed access that is not admitted does. -/

namespace Sys2Proof.Machine

/-- Whether an access to a unit's window is admitted is decided by its width and alignment alone (20_memory.md R61). -/
theorem admitted_window {s : State} (hI : s.Inv) {k off : Nat} {u : PwmUnit} (hk : s.units[k]? = some u)
    (ho : off < Config.windowBytes) (n : Nat) :
    admitted s (u.info.base + off) n = if n = 4 ∧ off % 4 = 0 then some (k, off) else none := by
  simp only [admitted, locate_of_get hI.infos.disjoint hk ho]

/-- A read that is not admitted is a BusError (20_memory.md R61). -/
theorem hostRead_of_not_admitted {s : State} {a n : Nat} (h : admitted s a n = none) :
    hostRead a n s = .fault (.busError a n) := by
  simp only [hostRead, h]

/-- A write that is not admitted is a BusError (20_memory.md R61). -/
theorem hostWrite_of_not_admitted {s : State} {a n : Nat} (h : admitted s a n = none) (v : Word) :
    hostWrite a n v s = .fault (.busError a n) := by
  simp only [hostWrite, h]

/-- A placed access that is not admitted ends the run in a BusError, read or write (20_memory.md R61). -/
theorem step_placed_of_not_admitted {s : State} {a n : Nat} (h : admitted s a n = none) (v : Word)
    (rest : List Config.Event) :
    step { s with agenda := .host (.read a n) :: rest } = .fault (.busError a n) ∧
      step { s with agenda := .host (.write a n v) :: rest } = .fault (.busError a n) := by
  have htaken : admitted { s with agenda := rest } a n = none := (admitted_congr rfl a n).trans h
  exact ⟨hostRead_of_not_admitted htaken, hostWrite_of_not_admitted htaken v⟩

/-- Settles O9: within a window only width and alignment are left to decide, and an access not admitted is a BusError. -/
theorem windowAccessIsAdmittedExactlyWhenAlignedWord :
    Obligations.WindowAccessIsAdmittedExactlyWhenAlignedWord := by
  unfold Obligations.WindowAccessIsAdmittedExactlyWhenAlignedWord
  intro s k u off n v rest hI hk ho
  have hwindow := admitted_window hI hk ho n
  constructor
  · intro haligned
    exact hwindow.trans (if_pos haligned)
  · intro hbad
    exact step_placed_of_not_admitted (hwindow.trans (if_neg hbad)) v rest

end Sys2Proof.Machine
end

section
/-! PROOFS. The statements of 30_encoding.md about illegal words and the bit HCTX. First what a placed write to CMD comes
to and which words raise ILLEGAL, then what HCTX does to each command. -/

namespace Sys2Proof.Machine

/-! ## Illegal words -/

/-- The illegal words of 30_encoding.md R85 do not decode. -/
theorem decodeWord_error_of_illegal {v : Word} (h : IllegalWord v) : ∃ r, decodeWord v = .error r := by
  cases hd : decodeWord v with
  | error r => exact ⟨r, rfl⟩
  | ok i =>
    obtain ⟨hlow, hhigh, hpos, hmax, hch, -⟩ := decodeWord_ok hd
    obtain h | h | h | h | ⟨hop, h⟩ := h
    · omega
    · omega
    · exact absurd hlow h
    · exact absurd hhigh h
    · exact absurd (hch hop) h

/-- An illegal word changes only ERR of the selected unit (30_encoding.md R85, 60_exceptions.md R181). -/
theorem executeCommand_of_illegal {s : State} {u : PwmUnit} {v : Word} (hu : s.units[s.sel]? = some u)
    (h : IllegalWord v) : executeCommand v s = .next (s.putUnit { u with err := .illegal }) := by
  obtain ⟨r, hr⟩ := decodeWord_error_of_illegal h
  simp only [executeCommand, hr]
  exact onSelected_next hu rfl

/-- A placed write admitted at CMD executes its word on the unit written to (20_memory.md R63, 30_encoding.md R84). -/
theorem step_placed_cmd_write {s : State} {k a : Nat} {v : Word} {rest : List Config.Event}
    (he : s.agenda = .host (.write a 4 v) :: rest) (hA : admitted s a 4 = some (k, 0)) :
    step s = executeCommand v { s with agenda := rest, sel := k } := by
  have htaken : admitted { s with agenda := rest } a 4 = some (k, 0) := (admitted_congr rfl a 4).trans hA
  simp only [step, takeEvent_cons he, perform, access, hostWrite, htaken, regAt_zero, if_true]

/-- Settles O6: the write executes the word on its unit, and an illegal word raises ILLEGAL there. -/
theorem illegalWordsChangeOnlyErr : Obligations.IllegalWordsChangeOnlyErr := by
  unfold Obligations.IllegalWordsChangeOnlyErr
  intro s k u a v rest he hA hk hv
  have hsel : ({ s with agenda := rest, sel := k } : State).units[k]? = some u := hk
  exact (step_placed_cmd_write he hA).trans (executeCommand_of_illegal hsel hv)

/-! ## The bit HCTX -/

/-- Two commands that act alike on a unit are executed alike. -/
theorem exec_eq_of_unitCommand_eq {s : State} {i j : Instr} (h : unitCommand s.params i = unitCommand s.params j) :
    exec i s = exec j s := by
  rw [exec_eq_onSelected, exec_eq_onSelected, h]

/-- A command that faults on the selected unit faults. -/
theorem exec_eq_fault {s : State} {u : PwmUnit} {i : Instr} {r : Fault} (hu : s.units[s.sel]? = some u)
    (h : unitCommand s.params i u = .fault r) : exec i s = .fault r :=
  (exec_eq_onSelected i s).trans (onSelected_fault hu h)

/-- INIT from a handler faults, whatever the unit's STATE (60_exceptions.md R183). -/
theorem initUnit_handler (u : PwmUnit) : initUnit true u = .fault (.reentrantLifecycle .init) := rfl

/-- START from a handler faults, whatever the unit's STATE (60_exceptions.md R183). -/
theorem startUnit_handler (p : Config.Params) (u : PwmUnit) :
    startUnit p true u = .fault (.reentrantLifecycle .start) := rfl

/-- STOP from a handler faults, whatever the unit's STATE (60_exceptions.md R183). -/
theorem stopUnit_handler (u : PwmUnit) : stopUnit true u = .fault (.reentrantLifecycle .stop) := rfl

/-- Settles O26: CHPER, ENCH and DISCH act on a unit without reading HCTX, and the lifecycle commands test it first. -/
theorem handlerContextOnlyMattersToLifecycle : Obligations.HandlerContextOnlyMattersToLifecycle := by
  unfold Obligations.HandlerContextOnlyMattersToLifecycle
  intro s u ch hu
  refine ⟨?chper, ?ench, ?disch, ?init, ?start, ?stop⟩
  case chper => exact exec_eq_of_unitCommand_eq rfl
  case ench => exact exec_eq_of_unitCommand_eq rfl
  case disch => exact exec_eq_of_unitCommand_eq rfl
  case init => exact exec_eq_fault hu (initUnit_handler u)
  case start => exact exec_eq_fault hu (startUnit_handler s.params u)
  case stop => exact exec_eq_fault hu (stopUnit_handler u)

end Sys2Proof.Machine
end

section
/-! PROOFS. The statements of 40_mapping.md about the timer register mapping. First the division behind the prescaler,
and from which operands `compute_timebase` gives which result. -/

namespace Sys2Proof.Machine

/-- A tick rate is exact for a divisor when it divides the clock, and the divisor is then the quotient (40_mapping.md
R101). -/
theorem succ_mul_eq_iff_dvd_and_eq_div_sub_one {clock f psc : Nat} (hclock : 1 ≤ clock) :
    (psc + 1) * f = clock ↔ f ≠ 0 ∧ f ∣ clock ∧ psc = clock / f - 1 := by
  constructor
  · rintro rfl
    have hf : f ≠ 0 := by rintro rfl; omega
    rw [Nat.mul_div_cancel _ (Nat.pos_of_ne_zero hf)]
    exact ⟨hf, Nat.dvd_mul_left f (psc + 1), rfl⟩
  · rintro ⟨hf, hdvd, rfl⟩
    have hquot : 0 < clock / f := Nat.div_pos (Nat.le_of_dvd hclock hdvd) (Nat.pos_of_ne_zero hf)
    rw [Nat.sub_add_cancel hquot, Nat.div_mul_cancel hdvd]

/-- `compute_timebase` gives a result exactly within the bounds of 40_mapping.md R102, and that result alone. -/
theorem computeTimebase_eq_some_iff {p : Config.Params} {f n : Nat} {t : Timebase} :
    computeTimebase p f n = some t ↔
      f ≠ 0 ∧ 1 ≤ n ∧ n ≤ p.maxCount ∧ f ∣ p.inputClockHz ∧ t.prescaler = p.inputClockHz / f - 1 ∧
        t.reload = n - 1 ∧ t.prescaler ≤ p.pscMax := by
  refine ⟨computeTimebase_bounds, ?_⟩
  rintro ⟨hf, hpos, hmax, hdvd, hpsc, hreload, hfit⟩
  have hsome : computeTimebase p f n ≠ none := fun hnone =>
    computeTimebase_none_iff.mp hnone ⟨hf, hpos, hmax, hdvd, by omega⟩
  obtain ⟨⟨psc, reload⟩, hresult⟩ := Option.ne_none_iff_exists'.mp hsome
  obtain ⟨-, -, -, -, hpsc', hreload', -⟩ := computeTimebase_bounds hresult
  obtain rfl : psc = t.prescaler := hpsc'.trans hpsc.symm
  obtain rfl : reload = t.reload := hreload'.trans hreload.symm
  exact hresult

/-- Settles O33: within the bounds of a result, its prescaler is the one whose divisor gives the frequency exactly. -/
theorem computeTimebaseIsTheExactDivision : Obligations.ComputeTimebaseIsTheExactDivision := by
  unfold Obligations.ComputeTimebaseIsTheExactDivision
  intro p f n psc reload hclock
  rw [computeTimebase_eq_some_iff, succ_mul_eq_iff_dvd_and_eq_div_sub_one hclock]
  constructor
  · rintro ⟨hf, hpos, hmax, hdvd, hpsc, hreload, hfit⟩
    exact ⟨⟨hf, hdvd, hpsc⟩, hfit, (congrArg (· + 1) hreload).trans (Nat.sub_add_cancel hpos), hmax⟩
  · rintro ⟨⟨hf, hdvd, hpsc⟩, hfit, rfl, hmax⟩
    exact ⟨hf, Nat.succ_pos reload, hmax, hdvd, hpsc, rfl, hfit⟩

/-- Settles O34: the compare value is the smaller of width and period, and the polarity bits are those of the mode. -/
theorem computeChannelRegisterSaturates : Obligations.ComputeChannelRegisterSaturates := by
  unfold Obligations.ComputeChannelRegisterSaturates
  intro mode width period
  refine ⟨Nat.min_le_right width period, ?fits, ?saturates, rfl, rfl, ⟨rfl, rfl⟩, ⟨rfl, rfl⟩, ⟨rfl, rfl⟩, rfl, rfl⟩
  case fits => exact Nat.min_eq_left
  case saturates => exact fun h => Nat.min_eq_right h.le

end Sys2Proof.Machine
end

section
/-! PROOFS. The statements of 41_lifecycle.md about INIT, START and STOP. First each command on one unit, one equation per
outcome, then why a stopped unit is silent and STOP leaves it as it is. -/

namespace Sys2Proof.Machine

/-- A command that answers a next unit on the selected unit answers the machine with that unit put back. -/
theorem exec_eq_next {s : State} {u u' : PwmUnit} {i : Instr} (hu : s.units[s.sel]? = some u)
    (h : unitCommand s.params i u = .next u') : exec i s = .next (s.putUnit u') :=
  (exec_eq_onSelected i s).trans (onSelected_next hu h)

/-! ## INIT -/

/-- A second INIT faults (60_exceptions.md R184). -/
theorem initUnit_doubleInit {u : PwmUnit} (h : u.state ≠ .uninitialized) : initUnit false u = .fault .doubleInit := by
  simp [initUnit, h]

/-- INIT moves an Uninitialized unit to Stopped (41_lifecycle.md R120). -/
theorem initUnit_uninitialized {u : PwmUnit} (h : u.state = .uninitialized) :
    initUnit false u = .next { u with state := .stopped, err := .ok } := by
  simp [initUnit, complete, h]

/-- INIT after reset, read back in STATUS (41_lifecycle.md R120). -/
theorem PwmUnit.reset_init_statusWord (p : Config.Params) (i : Config.UnitInfo) :
    ({ PwmUnit.reset p i with state := .stopped, err := .ok } : PwmUnit).statusWord = 0x00000001 := by
  simp [PwmUnit.statusWord, PwmUnit.reset, DriverState.code, ErrCode.code]

/-- Settles O18: INIT tests HCTX, then STATE, and what it leaves of the reset unit has 1 in STATE and 0 elsewhere. -/
theorem initMovesUninitializedToStopped : Obligations.InitMovesUninitializedToStopped := by
  unfold Obligations.InitMovesUninitializedToStopped
  constructor
  · intro s u hu
    exact ⟨exec_eq_fault hu (initUnit_handler u), fun h => exec_eq_fault hu (initUnit_doubleInit h),
      fun h => exec_eq_next hu (initUnit_uninitialized h)⟩
  · intro p us hus
    obtain ⟨i, rest, rfl⟩ := List.exists_cons_of_ne_nil hus
    have hu : (State.resetWith p (i :: rest)).units[0]? = some (PwmUnit.reset p i) := rfl
    exact ⟨_, _, exec_eq_next hu (initUnit_uninitialized rfl), State.putUnit_get_self _ hu,
      PwmUnit.reset_init_statusWord p i⟩

/-! ## START -/

/-- START before INIT reports INVSTATE (41_lifecycle.md R121). -/
theorem startUnit_uninitialized (p : Config.Params) {u : PwmUnit} (h : u.state = .uninitialized) :
    startUnit p false u = .next { u with err := .invstate } := by
  simp [startUnit, raise, h]

/-- START reports CONFIG for a staged mode 3, or for values that cannot be mapped (41_lifecycle.md R121). -/
theorem startUnit_config {p : Config.Params} {u : PwmUnit} (hs : u.state ≠ .uninitialized)
    (h : (∃ c ∈ u.chans, c.cfgMode = .reserved) ∨ ¬ Mappable p u.cfgFreq.toNat u.cfgPeriod.toNat) :
    startUnit p false u = .next { u with err := .config } := by
  by_cases hmode : ∃ c ∈ u.chans, c.cfgMode = .reserved
  · simp [startUnit, raise, hs, hmode]
  · have hnone := computeTimebase_none_iff.mpr (h.resolve_left hmode)
    simp [startUnit, raise, hs, hnone]

/-- Mappable values have the one timebase of 40_mapping.md R101. -/
theorem computeTimebase_of_mappable {p : Config.Params} {f n : Nat} (h : Mappable p f n) :
    computeTimebase p f n = some { prescaler := p.inputClockHz / f - 1, reload := n - 1 } := by
  obtain ⟨hf, hpos, hmax, hdvd, hfit⟩ := h
  exact computeTimebase_eq_some_iff.mpr ⟨hf, hpos, hmax, hdvd, rfl, rfl, Nat.sub_le_of_le_add hfit⟩

/-- START with no staged mode 3 and mappable values commits them (41_lifecycle.md R121). -/
theorem startUnit_accepted {p : Config.Params} {u : PwmUnit} (hs : u.state ≠ .uninitialized)
    (hmode : ∀ c ∈ u.chans, c.cfgMode ≠ .reserved) {t : Timebase}
    (ht : computeTimebase p u.cfgFreq.toNat u.cfgPeriod.toNat = some t) :
    startUnit p false u = .next { (u.stopEffects.latchConfig.programTimer t).release with err := .ok } := by
  have hany : u.chans.any (fun c => decide (c.cfgMode = .reserved)) = false := by simpa using hmode
  simp [startUnit, complete, hs, hany, ht]

/-- START's programming of one channel, after the effects of STOP and the latch: its compare values are `min(0, period)`,
which is 0, and its polarity is that of the staged mode (41_lifecycle.md R121, 40_mapping.md R103). -/
theorem PwmUnit.start_chans (u : PwmUnit) :
    u.stopEffects.latchConfig.chans.map (Channel.program u.cfgPeriod.toNat) = u.chans.map fun c =>
      { cfgMode := c.cfgMode, cfgCcb := c.cfgCcb, actMode := c.cfgMode, actCcb := c.cfgCcb
        enabled := false, ccif := false, ccr := 0, ccrSh := 0
        oe := c.cfgMode.drives, oeSh := c.cfgMode.drives
        pol := c.cfgMode.activeIsLow, polSh := c.cfgMode.activeIsLow } := by
  simp [PwmUnit.latchConfig, Channel.program, Channel.stopEffects, computeChannelRegister]

/-- Settles O19: validation decides the outcome, and an accepted START writes the channels of `start_chans`. -/
theorem startProgramsTheUnit : Obligations.StartProgramsTheUnit := by
  unfold Obligations.StartProgramsTheUnit
  intro s u hu
  refine ⟨exec_eq_fault hu (startUnit_handler s.params u),
    fun hs => exec_eq_next hu (startUnit_uninitialized s.params hs),
    fun hs hbad => exec_eq_next hu (startUnit_config hs hbad), ?accepted⟩
  case accepted =>
    intro hs hmode hmap
    rw [← PwmUnit.start_chans]
    exact exec_eq_next hu (startUnit_accepted hs hmode (computeTimebase_of_mappable hmap))

/-! ## STOP -/

/-- The unit a successful STOP leaves (41_lifecycle.md R122). -/
def PwmUnit.afterStop (u : PwmUnit) : PwmUnit := { u.stopEffects with state := .stopped, err := .ok }

@[simp] theorem PwmUnit.afterStop_state (u : PwmUnit) : u.afterStop.state = .stopped := rfl
@[simp] theorem PwmUnit.afterStop_err (u : PwmUnit) : u.afterStop.err = .ok := rfl

/-- STOP before INIT reports INVSTATE (41_lifecycle.md R122). -/
theorem stopUnit_uninitialized {u : PwmUnit} (h : u.state = .uninitialized) :
    stopUnit false u = .next { u with err := .invstate } := by
  simp [stopUnit, raise, h]

/-- STOP succeeds in every other STATE (41_lifecycle.md R122). -/
theorem stopUnit_initialized {u : PwmUnit} (h : u.state ≠ .uninitialized) : stopUnit false u = .next u.afterStop := by
  simp [stopUnit, complete, PwmUnit.afterStop, h]

theorem exec_stop_initialized {s : State} {u : PwmUnit} (hu : s.units[s.sel]? = some u)
    (hs : u.state ≠ .uninitialized) : exec (.stop false) s = .next (s.putUnit u.afterStop) :=
  exec_eq_next hu (stopUnit_initialized hs)

theorem Channel.stopEffects_quiet (c : Channel) : c.stopEffects.Quiet := by constructor <;> rfl

/-- STOP leaves every timer, latch and flag field 0 (10_state.md R47). -/
theorem PwmUnit.afterStop_quiet (u : PwmUnit) : u.afterStop.Quiet := by
  constructor
  case chans => exact List.forall_mem_map.mpr fun c _ => c.stopEffects_quiet
  all_goals rfl

theorem Channel.Quiet.stopEffects_eq {c : Channel} (h : c.Quiet) : c.stopEffects = c := by
  obtain ⟨henabled, hactMode, hactCcb, hccr, hccrSh, hoe, hoeSh, hpol, hpolSh, hccif⟩ := h
  cases c
  simp_all [Channel.stopEffects]

/-- The effects of STOP change nothing where every field they clear is 0 already. -/
theorem PwmUnit.Quiet.stopEffects_eq {u : PwmUnit} (h : u.Quiet) : u.stopEffects = u := by
  have hchans : u.chans.map Channel.stopEffects = u.chans :=
    (List.map_congr_left fun c hc => (h.chans c hc).stopEffects_eq).trans (List.map_id' _)
  obtain ⟨hclken, hcen, hie, hcfgv, hperiod, hactFreq, hactPcb, hrawAct, hpsc, hpscCnt, hcnt, harr, harrSh, huif, hovr,
    -⟩ := h
  cases u
  simp_all [PwmUnit.stopEffects]

/-- STOP of a quiet Stopped unit is a no-op but for ERR (41_lifecycle.md R122). -/
theorem PwmUnit.Quiet.afterStop_eq {u : PwmUnit} (h : u.Quiet) (hs : u.state = .stopped) :
    u.afterStop = { u with err := .ok } := by
  rw [PwmUnit.afterStop, h.stopEffects_eq, ← hs]

/-- Two STOPs equal one (41_lifecycle.md R122). -/
theorem PwmUnit.afterStop_afterStop (u : PwmUnit) : u.afterStop.afterStop = u.afterStop :=
  u.afterStop_quiet.afterStop_eq rfl

/-- A quiet unit's Counter takes no step (43_counter_output.md R160). -/
theorem PwmUnit.Quiet.clkEnabled {u : PwmUnit} (h : u.Quiet) : u.clkEnabled = false := by
  simp [PwmUnit.clkEnabled, h.clken]

/-- A quiet unit's Dispatcher takes no step (60_exceptions.md R187). -/
theorem PwmUnit.Quiet.dispatchEnabled {u : PwmUnit} (h : u.Quiet) : u.dispatchEnabled = false := by
  simp [PwmUnit.dispatchEnabled, h.ie]

/-- Settles O20: STOP leaves a quiet unit, a quiet unit is silent, and STOP of a quiet Stopped unit changes only ERR. -/
theorem stopClearsTheUnit : Obligations.StopClearsTheUnit := by
  unfold Obligations.StopClearsTheUnit
  constructor
  · intro s u hu
    refine ⟨exec_eq_fault hu (stopUnit_handler u), fun hs => exec_eq_next hu (stopUnit_uninitialized hs), ?stops⟩
    case stops =>
      intro hs
      have hstop : unitCommand s.params (.stop false) u = .next u.afterStop := stopUnit_initialized hs
      have hagain : exec (.stop false) (s.putUnit u.afterStop) = .next (s.putUnit u.afterStop) := by
        rw [exec_stop_initialized (State.putUnit_get_self u.afterStop hu) (by simp), State.putUnit_putUnit,
          PwmUnit.afterStop_afterStop]
      obtain ⟨hinfo, harg, hnotify, hfreq, hperiod, hpcb, hraw, hstaged⟩ := unitCommand_frame hstop
      have hquiet := u.afterStop_quiet
      exact ⟨u.afterStop, exec_stop_initialized hu hs, rfl, rfl, hquiet, hinfo, harg, hnotify, hfreq, hperiod, hpcb, hraw,
        hstaged, hquiet.clkEnabled, hquiet.dispatchEnabled, PwmUnit.pin_eq_z_of_clken hquiet.clken, hagain⟩
  · intro s u hI hu hs
    have hquiet : u.Quiet := (hI.units u (List.mem_of_getElem? hu)).idle (by rw [hs]; rfl)
    rw [← hquiet.afterStop_eq hs]
    exact exec_stop_initialized hu (by simp [hs])

end Sys2Proof.Machine
end

section
/-! PROOFS. The statements of 42_channel_ops.md about CHPER, ENCH and DISCH. First in which STATEs they are legal, then each
command on one unit, one equation per outcome. -/

namespace Sys2Proof.Machine

open Config (Params)

/-- The period and channel commands are legal in Ready and Active (42_channel_ops.md R140, R141, R142). -/
theorem DriverState.running_eq_true_iff {d : DriverState} : d.running = true ↔ d = .ready ∨ d = .active := by
  cases d <;> simp [DriverState.running]

/-- They are not legal in the two other STATEs (42_channel_ops.md R140, R141, R142). -/
theorem DriverState.running_eq_false_iff {d : DriverState} : d.running = false ↔ d = .uninitialized ∨ d = .stopped := by
  cases d <;> simp [DriverState.running]

/-! ## CHPER -/

/-- CHPER in Uninitialized or Stopped reports INVSTATE (42_channel_ops.md R140). -/
theorem chperUnit_invstate (p : Params) {u : PwmUnit} (h : u.state = .uninitialized ∨ u.state = .stopped) :
    chperUnit p u = .next { u with err := .invstate } := by
  simp [chperUnit, raise, DriverState.running_eq_false_iff.mpr h]

/-- CHPER reports CONFIG for a period that cannot be mapped at the latched frequency (42_channel_ops.md R140). -/
theorem chperUnit_config {p : Params} {u : PwmUnit} (h : u.state = .ready ∨ u.state = .active)
    (hmap : ¬ Mappable p u.actFreq.toNat u.arg.toNat) : chperUnit p u = .next { u with err := .config } := by
  have hnone : computeTimebase p u.actFreq.toNat u.periodOperand = none := computeTimebase_none_iff.mpr hmap
  simp [chperUnit, raise, DriverState.running_eq_true_iff.mpr h, hnone]

/-- CHPER with a mappable period writes ARR_SH and PERIOD (42_channel_ops.md R140). -/
theorem chperUnit_accepted {p : Params} {u : PwmUnit} (h : u.state = .ready ∨ u.state = .active)
    (hmap : Mappable p u.actFreq.toNat u.arg.toNat) :
    chperUnit p u = .next { u with arrSh := u.arg.toNat - 1, period := u.arg.toNat, err := .ok } := by
  simp [chperUnit, complete, PwmUnit.periodOperand, DriverState.running_eq_true_iff.mpr h,
    computeTimebase_of_mappable hmap]

/-- The latched frequency of a running unit divides the input clock, by PSC + 1 (40_mapping.md R102). -/
theorem PwmUnit.Running.actFreq_divides {p : Params} {u : PwmUnit} (h : u.Running p) (hp : p.Valid) :
    u.actFreq.toNat ≠ 0 ∧ u.actFreq.toNat ∣ p.inputClockHz ∧ u.psc = p.inputClockHz / u.actFreq.toNat - 1 :=
  (succ_mul_eq_iff_dvd_and_eq_div_sub_one hp.inputClockHz.left).mp h.freq

/-- At the latched frequency of a running unit, the range of the period is all that is left to check: the frequency was
validated by START (42_channel_ops.md R140). -/
theorem PwmUnit.Running.mappable_iff {p : Params} {u : PwmUnit} (h : u.Running p) (hp : p.Valid) (n : Nat) :
    Mappable p u.actFreq.toNat n ↔ 1 ≤ n ∧ n ≤ p.maxCount := by
  obtain ⟨hfreq, hdvd, hpsc⟩ := h.actFreq_divides hp
  have hfit : p.inputClockHz / u.actFreq.toNat ≤ p.pscMax + 1 := Nat.sub_le_iff_le_add.mp (hpsc ▸ h.psc)
  exact ⟨fun ⟨_, hpos, hmax, _⟩ => ⟨hpos, hmax⟩, fun ⟨hpos, hmax⟩ => ⟨hfreq, hpos, hmax, hdvd, hfit⟩⟩

/-- Settles O22: the mapping decides CHPER's outcome, and in a running unit the frequency part of it always succeeds, with
PSC. -/
theorem chperWritesTheShadowReload : Obligations.ChperWritesTheShadowReload := by
  unfold Obligations.ChperWritesTheShadowReload
  constructor
  · intro s u h hu
    exact ⟨fun hs => exec_eq_next hu (chperUnit_invstate _ hs),
      fun hs => ⟨fun hmap => exec_eq_next hu (chperUnit_config hs hmap),
        fun hmap => exec_eq_next hu (chperUnit_accepted hs hmap)⟩⟩
  · intro s u hI hu hs
    have hrun : u.Running s.params :=
      (hI.units u (List.mem_of_getElem? hu)).running (DriverState.running_eq_true_iff.mpr hs)
    obtain ⟨-, -, hpsc⟩ := hrun.actFreq_divides hI.params
    refine ⟨hrun.mappable_iff hI.params u.arg.toNat, fun hmap => ?_⟩
    rw [hpsc]
    exact computeTimebase_of_mappable hmap

/-! ## ENCH -/

/-- ENCH in Uninitialized or Stopped reports INVSTATE (42_channel_ops.md R141). -/
theorem enchUnit_invstate (p : Params) (ch : Nat) {u : PwmUnit} (h : u.state = .uninitialized ∨ u.state = .stopped) :
    enchUnit p ch u = .next { u with err := .invstate } := by
  simp [enchUnit, raise, DriverState.running_eq_false_iff.mpr h]

/-- ENCH of a channel of CHANNELS or more reports INVCH (42_channel_ops.md R141). -/
theorem enchUnit_invch {p : Params} {ch : Nat} {u : PwmUnit} (h : u.state = .ready ∨ u.state = .active)
    (hch : p.channels ≤ ch) : enchUnit p ch u = .next { u with err := .invch } := by
  simp [enchUnit, raise, DriverState.running_eq_true_iff.mpr h, hch]

/-- ENCH of a channel that exists writes that channel alone, and STATE (42_channel_ops.md R141). -/
theorem enchUnit_accepted {p : Params} {ch : Nat} {u : PwmUnit} {c : Channel}
    (h : u.state = .ready ∨ u.state = .active) (hch : ch < p.channels) (hc : u.chans[ch]? = some c) :
    enchUnit p ch u = .next
      { u with state := .active, err := .ok, chans := u.chans.set ch (c.enable u.arg.toNat u.period) } := by
  simp [enchUnit, complete, PwmUnit.widthOperand, DriverState.running_eq_true_iff.mpr h, hch,
    PwmUnit.modifyChannel_of_get _ hc]

/-- Settles O23: STATE, then the channel number decide ENCH's outcome; the shadows are those of `Channel.enable`. -/
theorem enchProgramsTheChannelShadows : Obligations.EnchProgramsTheChannelShadows := by
  unfold Obligations.EnchProgramsTheChannelShadows
  intro s u h ch hu
  exact ⟨fun hs => exec_eq_next hu (enchUnit_invstate _ ch hs),
    fun hs => ⟨fun hch => exec_eq_next hu (enchUnit_invch hs hch),
      fun hch c hc => exec_eq_next hu (enchUnit_accepted hs hch hc)⟩⟩

/-! ## DISCH -/

/-- DISCH in Uninitialized or Stopped reports INVSTATE (42_channel_ops.md R142). -/
theorem dischUnit_invstate (p : Params) (ch : Nat) {u : PwmUnit} (h : u.state = .uninitialized ∨ u.state = .stopped) :
    dischUnit p ch u = .next { u with err := .invstate } := by
  simp [dischUnit, raise, DriverState.running_eq_false_iff.mpr h]

/-- DISCH of a channel of CHANNELS or more reports INVCH (42_channel_ops.md R142). -/
theorem dischUnit_invch {p : Params} {ch : Nat} {u : PwmUnit} (h : u.state = .ready ∨ u.state = .active)
    (hch : p.channels ≤ ch) : dischUnit p ch u = .next { u with err := .invch } := by
  simp [dischUnit, raise, DriverState.running_eq_true_iff.mpr h, hch]

/-- DISCH of a channel that exists writes that channel alone (42_channel_ops.md R142). -/
theorem dischUnit_accepted {p : Params} {ch : Nat} {u : PwmUnit} {c : Channel}
    (h : u.state = .ready ∨ u.state = .active) (hch : ch < p.channels) (hc : u.chans[ch]? = some c) :
    dischUnit p ch u = .next { u with err := .ok, chans := u.chans.set ch c.disable } := by
  simp [dischUnit, complete, DriverState.running_eq_true_iff.mpr h, hch,
    PwmUnit.modifyChannel_of_get _ hc]

/-- Settles O24: STATE, then the channel number decide DISCH's outcome; the shadows are those of `Channel.disable`. -/
theorem dischClearsTheChannelPolarity : Obligations.DischClearsTheChannelPolarity := by
  unfold Obligations.DischClearsTheChannelPolarity
  intro s u h ch hu
  exact ⟨fun hs => exec_eq_next hu (dischUnit_invstate _ ch hs),
    fun hs => ⟨fun hch => exec_eq_next hu (dischUnit_invch hs hch),
      fun hch c hc => exec_eq_next hu (dischUnit_accepted hs hch hc)⟩⟩

end Sys2Proof.Machine
end

section
/-! PROOFS. The statements of 43_counter_output.md about CLK, TICK, the event flags and the pins. First what a tick does
in either branch, then what a step can do to the flags of a unit, and the level of one pin. -/

namespace Sys2Proof.Machine

/-! ## TICK -/

/-- The compare part of a tick, in closed form: each enabled channel at its compare value has its flag raised
(43_counter_output.md R162, R163). -/
theorem PwmUnit.compareEvents_eq (u : PwmUnit) :
    u.compareEvents = { u with
      ovr := u.ovr || u.chans.any fun c => c.enabled && c.ccif && u.cnt == c.ccr
      chans := u.chans.map fun c => { c with ccif := c.ccif || (c.enabled && u.cnt == c.ccr) } } := by
  simp only [PwmUnit.compareEvents, raiseCompares_eq, Channel.matchesAt, Bool.and_right_comm]

/-- The wrap raises the period-reset event (43_counter_output.md R162, R163). -/
theorem PwmUnit.wrap_eq (u : PwmUnit) :
    u.wrap = { u with
      cnt := 0, arr := u.arrSh, uif := true, ovr := u.ovr || u.uif, chans := u.chans.map Channel.transferShadows } := by
  simp only [PwmUnit.wrap, raiseFlag_fst, raiseFlag_snd, Bool.or_comm]

theorem PwmUnit.count_of_ne {u : PwmUnit} (h : u.cnt ≠ u.arr) : u.count = { u with cnt := u.cnt + 1 } := if_neg h

theorem PwmUnit.count_of_eq {u : PwmUnit} (h : u.cnt = u.arr) : u.count = u.wrap := if_pos h

/-- Settles O37: the two branches of the count, each followed by the compare events at the new CNT. -/
theorem tickCountsOrWraps : Obligations.TickCountsOrWraps := by
  unfold Obligations.TickCountsOrWraps
  intro u
  constructor
  · intro hne
    rw [PwmUnit.tick, PwmUnit.count_of_ne hne, PwmUnit.compareEvents_eq]
  · intro heq
    rw [PwmUnit.tick, PwmUnit.count_of_eq heq, PwmUnit.wrap_eq, PwmUnit.compareEvents_eq]
    simp only [List.any_map, List.map_map]
    rfl

/-- A tick never clears OVR (43_counter_output.md R164). -/
theorem PwmUnit.tick_ovr_of_ovr {u : PwmUnit} (h : u.ovr = true) : u.tick.ovr = true := by
  obtain ⟨hcount, hwrap⟩ := tickCountsOrWraps u
  by_cases hc : u.cnt = u.arr
  · simp [hwrap hc, h]
  · simp [hcount hc, h]

/-! ## CLK -/

/-- A placed CLK event puts its unit through one input-clock cycle (43_counter_output.md R161). -/
theorem step_placed_clk {s : State} {k : Nat} {u : PwmUnit} {rest : List Config.Event}
    (he : s.agenda = .clk k :: rest) (hk : s.units[k]? = some u) :
    step s = .next { s with agenda := rest, units := s.units.set k u.clk } := by
  simp only [step, takeEvent_cons he, perform, State.modifyUnit, modify_eq_set_of_get PwmUnit.clk hk]

/-- Settles O35: of the three things a cycle can do, the position of PSC_CNT leaves one. -/
theorem clkDividesTheInputClock : Obligations.ClkDividesTheInputClock := by
  unfold Obligations.ClkDividesTheInputClock
  intro s k u rest he hk hclken hcen
  have hen : u.clkEnabled = true := by simp [PwmUnit.clkEnabled, hclken, hcen]
  refine ⟨u.clk, step_placed_clk he hk, ?_⟩
  obtain ⟨hoff, -⟩ | ⟨-, hlt, hclk⟩ | ⟨-, hle, hclk⟩ := u.clk_cases
  · simp [hen] at hoff
  · exact ⟨fun _ => hclk, fun hle => absurd hlt (Nat.not_lt.mpr hle)⟩
  · exact ⟨fun hlt => absurd hle (Nat.not_le.mpr hlt), fun _ => hclk⟩

/-! ## The event flags in a step -/

/-- The event flags of a unit: UIF, OVR and every CCIF (10_state.md R37). -/
def PwmUnit.eventFlags (u : PwmUnit) : Bool × Bool × List Bool := (u.uif, u.ovr, u.chans.map Channel.ccif)

theorem PwmUnit.flagPending_eq_false_iff {u : PwmUnit} :
    u.flagPending = false ↔ u.uif = false ∧ u.ovr = false ∧ ∀ c ∈ u.chans, c.ccif = false := by
  simp [PwmUnit.flagPending, and_assoc]

theorem PwmUnit.clearFlags_flagPending (u : PwmUnit) : u.clearFlags.flagPending = false := by
  simp [PwmUnit.flagPending_eq_false_iff, PwmUnit.clearFlags]

/-- Changing one channel but for its CCIF keeps every event flag. -/
theorem PwmUnit.modifyChannel_eventFlags (u : PwmUnit) (i : Nat) {f : Channel → Channel}
    (hf : ∀ c, (f c).ccif = c.ccif) : (u.modifyChannel i f).eventFlags = u.eventFlags := by
  have hccif : (u.chans.modify i f).map Channel.ccif = u.chans.map Channel.ccif := by
    apply List.ext_getElem?
    intro j
    simp only [List.getElem?_map, List.getElem?_modify]
    cases u.chans[j]? with
    | none => rfl
    | some c => split <;> simp [hf]
  exact congrArg (fun flags => (u.uif, u.ovr, flags)) hccif

theorem writeReg_eventFlags (v : Word) (u : PwmUnit) (r : RegName) : (writeReg v u r).eventFlags = u.eventFlags := by
  cases r
  case chCfg i => exact u.modifyChannel_eventFlags i fun _ => rfl
  all_goals rfl

/-- START leaves no event pending (41_lifecycle.md R121). -/
theorem PwmUnit.start_flagPending (u : PwmUnit) (t : Timebase) :
    (u.stopEffects.latchConfig.programTimer t).release.flagPending = false := by
  simp [PwmUnit.flagPending_eq_false_iff, PwmUnit.release, PwmUnit.programTimer, PwmUnit.latchConfig,
    PwmUnit.stopEffects, Channel.program, Channel.stopEffects]

/-- A command keeps the event flags, or it is a START or STOP that leaves none pending (43_counter_output.md R163,
R164). -/
theorem unitCommand_eventFlags {p : Config.Params} {i : Instr} {u u' : PwmUnit} (h : unitCommand p i u = .next u') :
    u'.eventFlags = u.eventFlags ∨ (∃ hctx, i = .start hctx ∨ i = .stop hctx) ∧ u'.flagPending = false := by
  cases i with
  | init hctx => obtain ⟨-, -, rfl⟩ := initUnit_cases h; exact .inl rfl
  | start hctx =>
    obtain ⟨-, ⟨-, rfl⟩ | ⟨-, -, rfl⟩ | ⟨-, -, t, -, rfl⟩⟩ := startUnit_cases h
    · exact .inl rfl
    · exact .inl rfl
    · exact .inr ⟨⟨hctx, .inl rfl⟩, u.start_flagPending t⟩
  | stop hctx =>
    obtain ⟨-, ⟨-, rfl⟩ | ⟨-, rfl⟩⟩ := stopUnit_cases h
    · exact .inl rfl
    · have hquiet := u.afterStop_quiet
      exact .inr ⟨⟨hctx, .inr rfl⟩,
        PwmUnit.flagPending_eq_false_iff.mpr ⟨hquiet.uif, hquiet.ovr, fun c hc => (hquiet.chans c hc).ccif⟩⟩
  | chper hctx => obtain ⟨-, rfl⟩ | ⟨-, -, rfl⟩ | ⟨-, t, -, rfl⟩ := chperUnit_cases h <;> exact .inl rfl
  | ench hctx ch =>
    obtain ⟨-, rfl⟩ | ⟨-, -, rfl⟩ | ⟨-, -, rfl⟩ := enchUnit_cases h
    · exact .inl rfl
    · exact .inl rfl
    · exact .inl (u.modifyChannel_eventFlags ch fun _ => rfl)
  | disch hctx ch =>
    obtain ⟨-, rfl⟩ | ⟨-, -, rfl⟩ | ⟨-, -, rfl⟩ := dischUnit_cases h
    · exact .inl rfl
    · exact .inl rfl
    · exact .inl (u.modifyChannel_eventFlags ch fun _ => rfl)

/-- A step keeps the event flags of a unit, unless it is a tick of that unit, or its DISPATCH, START or STOP, which
leaves none pending (43_counter_output.md R163, R164). -/
theorem Did.eventFlags {s : State} {k : Nat} {u u' : PwmUnit} (h : Did s k u u') :
    u'.eventFlags = u.eventFlags ∨
    (s.nextEvent = .clk k ∧ u.ticksNow ∧ u' = { u with pscCnt := 0 }.tick) ∨
    ((s.nextEvent = .dispatch k ∨ s.restarts k) ∧ u'.flagPending = false) := by
  cases h with
  | same => exact .inl rfl
  | clk he =>
    obtain ⟨-, hu⟩ | ⟨-, -, hu⟩ | ⟨hen, hpsc, hu⟩ := u.clk_cases
    · exact .inl (by rw [hu])
    · exact .inl (by rw [hu]; rfl)
    · exact .inr (.inl ⟨he, ⟨hen, hpsc⟩, hu⟩)
  | dispatch he =>
    obtain ⟨-, hu⟩ | ⟨-, hu⟩ := u.dispatch_cases
    · exact .inl (by rw [hu])
    · exact .inr (.inr ⟨.inl he, by rw [hu]; exact u.clearFlags_flagPending⟩)
  | store => exact .inl (writeReg_eventFlags _ u _)
  | illegal => exact .inl rfl
  | command hruns hcmd =>
    obtain hkept | ⟨⟨hctx, hrestart⟩, hclear⟩ := unitCommand_eventFlags hcmd
    · exact .inl hkept
    · refine .inr (.inr ⟨.inr ⟨hctx, ?_⟩, hclear⟩)
      obtain rfl | rfl := hrestart
      · exact .inl hruns
      · exact .inr hruns

/-- Some event flag of a unit is 0 in `u` and 1 in `u'`. -/
def PwmUnit.RaisesFlag (u u' : PwmUnit) : Prop :=
  (u.uif = false ∧ u'.uif = true) ∨ (u.ovr = false ∧ u'.ovr = true) ∨
    ∃ (i : Nat) (c c' : Channel), u.chans[i]? = some c ∧ u'.chans[i]? = some c' ∧ c.ccif = false ∧ c'.ccif = true

/-- The same flags are none raised. -/
theorem PwmUnit.not_raisesFlag_of_eventFlags_eq {u u' : PwmUnit} (h : u'.eventFlags = u.eventFlags) :
    ¬ u.RaisesFlag u' := by
  simp only [PwmUnit.eventFlags, Prod.mk.injEq] at h
  obtain ⟨huif, hovr, hccif⟩ := h
  rintro (⟨h0, h1⟩ | ⟨h0, h1⟩ | ⟨i, c, c', hc, hc', h0, h1⟩)
  · simp [huif, h0] at h1
  · simp [hovr, h0] at h1
  · have hi := congrArg (·[i]?) hccif
    simp [hc, hc', h0, h1] at hi

/-- Where no flag is pending none was raised. -/
theorem PwmUnit.not_raisesFlag_of_flagPending {u u' : PwmUnit} (h : u'.flagPending = false) : ¬ u.RaisesFlag u' := by
  obtain ⟨huif, hovr, hccif⟩ := PwmUnit.flagPending_eq_false_iff.mp h
  rintro (⟨-, h1⟩ | ⟨-, h1⟩ | ⟨i, c, c', -, hc', -, h1⟩)
  · simp [huif] at h1
  · simp [hovr] at h1
  · simp [hccif c' (List.mem_of_getElem? hc')] at h1

/-- Settles O38: of all that a step can do to the flags of a unit, only its tick can raise one. -/
theorem eventsAreRaisedOnlyByTicks : Obligations.EventsAreRaisedOnlyByTicks := by
  unfold Obligations.EventsAreRaisedOnlyByTicks
  constructor
  · intro flag ovr
    cases flag <;> rfl
  · intro s t k u u' hstep hk hk' (hraise : u.RaisesFlag u')
    obtain hkept | ⟨he, htick, -⟩ | ⟨-, hclear⟩ := (did_of_step hstep hk hk').eventFlags
    · exact absurd hraise (PwmUnit.not_raisesFlag_of_eventFlags_eq hkept)
    · exact ⟨he, htick⟩
    · exact absurd hraise (PwmUnit.not_raisesFlag_of_flagPending hclear)

/-- Settles O39: of all that a step can do to the flags of a unit, only its DISPATCH, START and STOP clear OVR. -/
theorem overrunIsSticky : Obligations.OverrunIsSticky := by
  unfold Obligations.OverrunIsSticky
  refine ⟨?_, rfl, rfl⟩
  intro s t k u u' hstep hk hk' hset hcleared
  obtain hkept | ⟨-, -, rfl⟩ | ⟨hcause, -⟩ := (did_of_step hstep hk hk').eventFlags
  · have hovr : u'.ovr = u.ovr := congrArg (fun flags => flags.2.1) hkept
    simp [hovr, hset] at hcleared
  · have hovr : ({ u with pscCnt := 0 } : PwmUnit).tick.ovr = true := PwmUnit.tick_ovr_of_ovr hset
    simp [hovr] at hcleared
  · exact hcause

/-! ## The pins -/

/-- A pin is released where the channel's output is not enabled (43_counter_output.md R166). -/
theorem PwmUnit.pin_eq_z_of_oe {u : PwmUnit} {i : Nat} {c : Channel} (hc : u.chans[i]? = some c) (h : c.oe = false) :
    u.pin i = .z := by
  simp [PwmUnit.pin, hc, h]

/-- A driven pin is high where the channel is active, and POL inverts it (43_counter_output.md R165, R166). -/
theorem PwmUnit.pin_driven {u : PwmUnit} {i : Nat} {c : Channel} (hc : u.chans[i]? = some c) (hclken : u.clken = true)
    (hoe : c.oe = true) : u.pin i = if decide (u.cnt < c.ccr) ^^ c.pol then .high else .low := by
  simp [PwmUnit.pin, hc, hclken, hoe, Channel.activeAt]

/-- Settles O40: a pin is released or driven, and its level when driven is by cases of the compare and of POL. -/
theorem pinFollowsTheCompareAndPolarity : Obligations.PinFollowsTheCompareAndPolarity := by
  unfold Obligations.PinFollowsTheCompareAndPolarity
  intro u i c hc
  refine ⟨?released, ?activeHigh, ?activeLow⟩
  case released =>
    rintro (hclken | hoe)
    · exact PwmUnit.pin_eq_z_of_clken hclken i
    · exact PwmUnit.pin_eq_z_of_oe hc hoe
  all_goals
    intro hclken hoe hpol
    rw [PwmUnit.pin_driven hc hclken hoe, hpol]
    exact ⟨fun hlt => by simp [hlt], fun hle => by simp [hle]⟩

end Sys2Proof.Machine
end

section
/-! PROOFS. The statements of 60_exceptions.md. First what a command word reports, command by command, then the step of
the Dispatcher and the records it appends. -/

namespace Sys2Proof.Machine

open Host (Outcome)
open Config (Params)

/-! ## What a command on a unit reports -/

/-- The outcome of a command on the unit `u` is the one a report names: a fault, `raise` of its code on `u`, or for the
code OK a unit completed without `raise` (60_exceptions.md R181, R185). -/
inductive PwmUnit.Reports (u : PwmUnit) : Report → Outcome PwmUnit Fault Refusal → Prop where
  | fault (f : Fault) : u.Reports (.fault f) (.fault f)
  | error (e : ErrCode) : u.Reports (.code e) (raise e u)
  | ok (u' : PwmUnit) : u.Reports (.code .ok) (complete u')

/-- A report and an outcome that take the same branches agree if the branches do. -/
theorem PwmUnit.Reports.ite {u : PwmUnit} {P Q : Prop} [Decidable P] [Decidable Q] {r r' : Report}
    {o o' : Outcome PwmUnit Fault Refusal} (hPQ : P ↔ Q) (hthen : u.Reports r o) (helse : u.Reports r' o') :
    u.Reports (if P then r else r') (if Q then o else o') := by
  by_cases hP : P
  · rwa [if_pos hP, if_pos (hPQ.mp hP)]
  · rwa [if_neg hP, if_neg (hPQ.not.mp hP)]

/-- The report of each command on a unit, its checks in the order of 60_exceptions.md R185. -/
def commandReport (p : Params) (u : PwmUnit) : Instr → Report
  | .init hctx =>
    if hctx then .fault (.reentrantLifecycle .init)
    else if u.state ≠ .uninitialized then .fault .doubleInit
    else .code .ok
  | .start hctx =>
    if hctx then .fault (.reentrantLifecycle .start)
    else if u.state = .uninitialized then .code .invstate
    else if (∃ c ∈ u.chans, c.cfgMode = .reserved) ∨ ¬ Mappable p u.cfgFreq.toNat u.cfgPeriod.toNat then .code .config
    else .code .ok
  | .stop hctx =>
    if hctx then .fault (.reentrantLifecycle .stop)
    else if u.state = .uninitialized then .code .invstate
    else .code .ok
  | .chper _ =>
    if u.state ≠ .ready ∧ u.state ≠ .active then .code .invstate
    else if ¬ Mappable p u.actFreq.toNat u.arg.toNat then .code .config
    else .code .ok
  | .ench _ ch | .disch _ ch =>
    if u.state ≠ .ready ∧ u.state ≠ .active then .code .invstate
    else if p.channels ≤ ch then .code .invch
    else .code .ok

/-- The STATE check of CHPER, ENCH and DISCH (42_channel_ops.md R140, R141, R142). -/
theorem DriverState.ne_ready_and_ne_active_iff {d : DriverState} :
    d ≠ .ready ∧ d ≠ .active ↔ (!d.running) = true := by
  cases d <;> decide

/-- A command whose last check is the timebase reports CONFIG where the values cannot be mapped (40_mapping.md R101). -/
theorem PwmUnit.Reports.timebase {u : PwmUnit} {p : Params} {f n : Nat} {o : Outcome PwmUnit Fault Refusal}
    (hnone : computeTimebase p f n = none → o = raise .config u)
    (hsome : ∀ t, computeTimebase p f n = some t → ∃ u', o = complete u') :
    u.Reports (if ¬ Mappable p f n then .code .config else .code .ok) o := by
  by_cases hmap : Mappable p f n
  · obtain ⟨u', rfl⟩ := hsome _ (computeTimebase_of_mappable hmap)
    rw [if_neg (not_not.mpr hmap)]
    exact .ok u'
  · rw [if_pos hmap, hnone (computeTimebase_none_iff.mpr hmap)]
    exact .error .config

/-- Every command on a unit has the outcome its report names. -/
theorem unitCommand_reports (p : Params) (i : Instr) (u : PwmUnit) :
    u.Reports (commandReport p u i) (unitCommand p i u) := by
  cases i with
  | init hctx => exact .ite .rfl (.fault _) (.ite .rfl (.fault _) (.ok _))
  | start hctx =>
    refine .ite .rfl (.fault _) (.ite .rfl (.error _) ?_)
    rw [ite_or]
    refine .ite (by simp) (.error _) (.timebase ?_ ?_)
    · intro hnone
      rw [hnone]
    · intro t ht
      rw [ht]
      exact ⟨_, rfl⟩
  | stop hctx => exact .ite .rfl (.fault _) (.ite .rfl (.error _) (.ok _))
  | chper hctx =>
    refine .ite DriverState.ne_ready_and_ne_active_iff (.error _) (.timebase ?_ ?_)
    · intro hnone
      rw [PwmUnit.periodOperand, hnone]
    · intro t ht
      rw [PwmUnit.periodOperand, ht]
      exact ⟨_, rfl⟩
  | ench hctx ch => exact .ite DriverState.ne_ready_and_ne_active_iff (.error _) (.ite .rfl (.error _) (.ok _))
  | disch hctx ch => exact .ite DriverState.ne_ready_and_ne_active_iff (.error _) (.ite .rfl (.error _) (.ok _))

/-! ## What a command word reports -/

/-- A word that does not decode is illegal (30_encoding.md R84, R85). -/
theorem illegalWord_of_decodeWord_error {v : Word} {r : Reject} (h : decodeWord v = .error r) : IllegalWord v := by
  by_contra hlegal
  simp only [not_or, not_and, not_not] at hlegal
  obtain ⟨hpos, hmax, hlow, hhigh, hch⟩ := hlegal
  have hok : decodeWord v = .ok (commandOf (bitField v 3 0) (bitField v 15 8) (bitAt v 31)) := by
    simpa [decodeWord, hpos, hmax, hlow, hhigh] using hch
  simp [hok] at h

/-- A word that decodes is no illegal word (30_encoding.md R84, R85). -/
theorem not_illegalWord_of_decodeWord_ok {v : Word} {i : Instr} (h : decodeWord v = .ok i) : ¬ IllegalWord v := by
  intro hillegal
  obtain ⟨r, hr⟩ := decodeWord_error_of_illegal hillegal
  simp [hr] at h

/-- The order of 60_exceptions.md R185, read off a word that decodes, is that of its command. -/
theorem expectedReport_of_decodeWord_ok {p : Params} {u : PwmUnit} {v : Word} {i : Instr} (h : decodeWord v = .ok i) :
    expectedReport p u v = commandReport p u i := by
  have hlegal := not_illegalWord_of_decodeWord_ok h
  obtain ⟨-, -, hpos, hmax, -, rfl⟩ := decodeWord_ok h
  have hop : bitField v 3 0 = 1 ∨ bitField v 3 0 = 2 ∨ bitField v 3 0 = 3 ∨ bitField v 3 0 = 4 ∨ bitField v 3 0 = 5 ∨
      bitField v 3 0 = 6 := by omega
  unfold expectedReport
  rw [if_neg hlegal]
  obtain hop | hop | hop | hop | hop | hop := hop
  · simp [hop, commandOf, commandReport, lifecycleOf]
  · simp [hop, commandOf, commandReport, lifecycleOf]
  · simp [hop, commandOf, commandReport, lifecycleOf]
  · simp [hop, commandOf, commandReport]
  · simp [hop, commandOf, commandReport]
  · simp [hop, commandOf, commandReport]

/-- A command word acts on the selected unit with the outcome that R185 expects of it. -/
theorem executeCommand_reports (v : Word) (s : State) :
    ∃ f, executeCommand v s = onSelected s f ∧ ∀ u : PwmUnit, u.Reports (expectedReport s.params u v) (f u) := by
  obtain ⟨r, hr, hexec⟩ | ⟨i, hi, hexec⟩ := executeCommand_cases v s
  · refine ⟨raise .illegal, hexec, fun u => ?_⟩
    have hreport : expectedReport s.params u v = .code .illegal := if_pos (illegalWord_of_decodeWord_error hr)
    rw [hreport]
    exact .error .illegal
  · refine ⟨unitCommand s.params i, hexec, fun u => ?_⟩
    rw [expectedReport_of_decodeWord_ok hi]
    exact unitCommand_reports s.params i u

/-- The three ways in which a command word ends on the selected unit: a fault, an error that writes ERR alone, and a
completion that writes ERR = 0 (60_exceptions.md R181, R185). -/
theorem executeCommand_outcome {s : State} {u : PwmUnit} (v : Word) (hu : s.units[s.sel]? = some u) :
    (∃ f, expectedReport s.params u v = .fault f ∧ executeCommand v s = .fault f) ∨
    (∃ e, expectedReport s.params u v = .code e ∧ executeCommand v s = .next (s.putUnit { u with err := e })) ∨
    (∃ u', expectedReport s.params u v = .code .ok ∧ u'.err = .ok ∧ executeCommand v s = .next (s.putUnit u')) := by
  obtain ⟨f, hexec, hreports⟩ := executeCommand_reports v s
  have hu' := hreports u
  rw [hexec]
  generalize expectedReport s.params u v = report at hu' ⊢
  generalize ho : f u = o at hu'
  cases hu' with
  | fault r => exact .inl ⟨r, rfl, onSelected_fault hu ho⟩
  | error e => exact .inr (.inl ⟨e, rfl, onSelected_next hu ho⟩)
  | ok u' => exact .inr (.inr ⟨_, rfl, rfl, onSelected_next hu ho⟩)

/-- Settles O28: each of the three endings of a word is the one its expected report names, and the faults are three by
their constructors. -/
theorem commandReportsTheFirstOutcomeInOrder : Obligations.CommandReportsTheFirstOutcomeInOrder := by
  unfold Obligations.CommandReportsTheFirstOutcomeInOrder
  constructor
  · intro s u v hu
    obtain ⟨f, hreport, hexec⟩ | ⟨e, hreport, hexec⟩ | ⟨u', hreport, herr, hexec⟩ := executeCommand_outcome v hu
    · rw [hreport]
      exact hexec
    · rw [hreport]
      exact ⟨_, hexec, rfl⟩
    · rw [hreport]
      exact ⟨u', hexec, herr⟩
  · intro f
    cases f with
    | reentrantLifecycle op => exact .inl ⟨op, rfl⟩
    | doubleInit => exact .inr (.inl rfl)
    | busError a n => exact .inr (.inr ⟨a, n, rfl⟩)

/-- Settles O29: a word that goes on ended in an error, which wrote ERR alone, or completed. -/
theorem errorsChangeOnlyErr : Obligations.ErrorsChangeOnlyErr := by
  unfold Obligations.ErrorsChangeOnlyErr
  intro s t u v hu hnext
  obtain ⟨f, -, hexec⟩ | ⟨e, hreport, hexec⟩ | ⟨u', hreport, herr, hexec⟩ := executeCommand_outcome v hu
  · simp [hexec] at hnext
  · obtain rfl : s.putUnit { u with err := e } = t := by simpa [hexec] using hnext
    exact ⟨e, fun _ => rfl, ⟨_, rfl, rfl⟩, hreport⟩
  · obtain rfl : s.putUnit u' = t := by simpa [hexec] using hnext
    exact ⟨.ok, fun hne => absurd rfl hne, ⟨u', rfl, herr⟩, hreport⟩

/-! ## The Dispatcher agent -/

/-- A placed DISPATCH event puts its unit through one step of its Dispatcher (60_exceptions.md R187). -/
theorem step_placed_dispatch {s : State} {k : Nat} {u : PwmUnit} {rest : List Config.Event}
    (he : s.agenda = .dispatch k :: rest) (hk : s.units[k]? = some u) :
    step s = .next { s with agenda := rest, units := s.units.set k u.dispatch } := by
  simp only [step, takeEvent_cons he, perform, State.modifyUnit, modify_eq_set_of_get PwmUnit.dispatch hk]

/-- The Dispatcher is enabled where IE is 1 and a flag is pending, and then clears the flags and appends its records
(60_exceptions.md R187). -/
theorem PwmUnit.dispatch_of_pending {u : PwmUnit} (hie : u.ie = true)
    (hflag : u.uif = true ∨ u.ovr = true ∨ ∃ c ∈ u.chans, c.ccif = true) :
    u.dispatch = { u.clearFlags with notify := u.notify ++ u.notes } := by
  have henabled : u.dispatchEnabled = true := by
    simpa [PwmUnit.dispatchEnabled, PwmUnit.flagPending, hie, or_assoc] using hflag
  exact if_pos henabled

/-- Settles O44: the placed event is an enabled DISPATCH, whose channel records are a filter of the indexed channels. -/
theorem dispatchNotifiesAndClears : Obligations.DispatchNotifiesAndClears := by
  unfold Obligations.DispatchNotifiesAndClears
  intro s k u rest he hk hie hflag
  rw [step_placed_dispatch he hk, PwmUnit.dispatch_of_pending hie hflag]
  simp only [PwmUnit.notes, channelNotes_eq, PwmUnit.clearFlags, Bool.and_eq_true, List.append_assoc]

/-- The records of one DISPATCH are the CHANNEL records, and PERIOD and FAULT each behind its gate (60_exceptions.md
R188, R191). -/
theorem PwmUnit.mem_notes {u : PwmUnit} {r : Notification} :
    r ∈ u.notes ↔ r ∈ channelNotes u.info.id 0 u.chans ∨
      (u.uif = true ∧ u.actPcb = true) ∧ r = { unitId := u.info.id, kind := .period, ch := 0 } ∨
      (u.ovr = true ∧ u.actPcb = true) ∧ r = { unitId := u.info.id, kind := .fault, ch := 0 } := by
  simp [PwmUnit.notes]

/-- No record is emitted twice in one DISPATCH: the three kinds are apart. -/
theorem PwmUnit.notes_nodup (u : PwmUnit) : u.notes.Nodup := by
  rw [PwmUnit.notes, List.append_assoc]
  refine (channelNotes_nodup u.info.id u.chans).append ?periodAndFault ?apart
  case periodAndFault => split <;> split <;> simp
  case apart =>
    intro r hchannel hother
    obtain ⟨-, hkind, -⟩ := mem_channelNotes.mp hchannel
    simp only [List.mem_append, List.mem_ite_nil_right, List.mem_singleton] at hother
    obtain ⟨-, rfl⟩ | ⟨-, rfl⟩ := hother <;> cases hkind

/-- Settles O45: the appended list is that of the unit's records, and which these are is read off one kind at a time. -/
theorem notificationsAreGatedByCallbacks : Obligations.NotificationsAreGatedByCallbacks := by
  unfold Obligations.NotificationsAreGatedByCallbacks
  intro s k u rest he hk hie hflag
  have hstep := step_placed_dispatch he hk
  rw [PwmUnit.dispatch_of_pending hie hflag] at hstep
  refine ⟨_, u.notes, hstep, rfl, rfl, u.notes_nodup, ?noOther, ?channel, ?period, ?fault⟩
  case noOther =>
    intro r hr
    obtain hchannel | ⟨-, rfl⟩ | ⟨-, rfl⟩ := PwmUnit.mem_notes.mp hr
    · obtain ⟨hid, hkind, -⟩ := mem_channelNotes.mp hchannel
      exact ⟨hid, fun hne => absurd hkind hne⟩
    · exact ⟨rfl, fun _ => rfl⟩
    · exact ⟨rfl, fun _ => rfl⟩
  case channel =>
    intro i
    simp [PwmUnit.mem_notes, mem_channelNotes]
  case period => simp [PwmUnit.mem_notes, mem_channelNotes]
  case fault => simp [PwmUnit.mem_notes, mem_channelNotes]

end Sys2Proof.Machine
end

section
/-! PROOFS. The statements of 30_encoding.md about command words. First the fields that a command word can hold and the
fields of a word, then encoding and decoding in terms of them, and the rows of the opcode table. -/

namespace Sys2Proof

open Sys2Proof.Machine (IllegalWord illegalWord_of_decodeWord_error not_illegalWord_of_decodeWord_ok)

/-! ## The fields of a word -/

/-- Bit `i` of a word is its field of that one bit. -/
theorem bitAt_toNat (v : Word) (i : Nat) : (bitAt v i).toNat = bitField v i i := by
  simp only [bitAt, bitField, BitVec.getLsbD, Nat.toNat_testBit, Nat.add_sub_cancel_left, pow_one]

theorem bitField_lt (v : Word) (hi lo : Nat) : bitField v hi lo < 2 ^ (hi + 1 - lo) := Nat.mod_lt _ (by positivity)

/-- A word is made of the five fields of 30_encoding.md R80. -/
theorem word_eq_iff_fields {v w : Word} :
    v = w ↔ bitField v 3 0 = bitField w 3 0 ∧ bitField v 7 4 = bitField w 7 4 ∧ bitField v 15 8 = bitField w 15 8 ∧
      bitField v 30 16 = bitField w 30 16 ∧ bitField v 31 31 = bitField w 31 31 := by
  refine ⟨by rintro rfl; simp, fun h => BitVec.eq_of_toNat_eq ?_⟩
  have hv := v.isLt
  have hw := w.isLt
  simp only [bitField] at h
  omega

/-! ## The fields of a command word -/

/-- An opcode and a channel field that a command word can hold: CH is 0 on a command that takes no channel
(30_encoding.md R80, R82). -/
structure CommandFields (op ch : Nat) : Prop where
  opPos : 1 ≤ op
  opMax : op ≤ 6
  chMax : ch < 256
  noCh  : op ≤ 4 → ch = 0

/-- A well-formed command is that of its opcode and channel. -/
theorem Instr.exists_commandFields {i : Instr} (hi : i.wellFormed = true) :
    ∃ op ch h, CommandFields op ch ∧ i = commandOf op ch h := by
  cases i with
  | init h => exact ⟨1, 0, h, by constructor <;> decide, rfl⟩
  | start h => exact ⟨2, 0, h, by constructor <;> decide, rfl⟩
  | stop h => exact ⟨3, 0, h, by constructor <;> decide, rfl⟩
  | chper h => exact ⟨4, 0, h, by constructor <;> decide, rfl⟩
  | ench h ch => exact ⟨5, ch, h, ⟨by decide, by decide, of_decide_eq_true hi, by omega⟩, rfl⟩
  | disch h ch => exact ⟨6, ch, h, ⟨by decide, by decide, of_decide_eq_true hi, by omega⟩, rfl⟩

/-- The command of fields that a word can hold is well formed, and is encoded by these fields. -/
theorem CommandFields.encode_commandOf {op ch : Nat} (hf : CommandFields op ch) (h : Bool) :
    encode (commandOf op ch h) = commandWord op ch h ∧ (commandOf op ch h).wellFormed = true := by
  obtain ⟨hpos, hmax, hch, hno⟩ := hf
  have hop : op = 1 ∨ op = 2 ∨ op = 3 ∨ op = 4 ∨ op = 5 ∨ op = 6 := by omega
  obtain rfl | rfl | rfl | rfl | rfl | rfl := hop
  case inl | inr.inl | inr.inr.inl | inr.inr.inr.inl =>
    obtain rfl := hno (by decide)
    exact ⟨rfl, rfl⟩
  all_goals exact ⟨rfl, decide_eq_true hch⟩

/-- A command word field by field (30_encoding.md R80). -/
theorem CommandFields.commandWord_fields {op ch : Nat} (hf : CommandFields op ch) (h : Bool) :
    bitField (commandWord op ch h) 3 0 = op ∧ bitField (commandWord op ch h) 7 4 = 0 ∧
      bitField (commandWord op ch h) 15 8 = ch ∧ bitField (commandWord op ch h) 30 16 = 0 ∧
      bitAt (commandWord op ch h) 31 = h := by
  obtain ⟨hpos, hmax, hch, -⟩ := hf
  have hh := h.toNat_le
  unfold commandWord
  refine ⟨?op, ?res0, ?ch, ?res1, bitAt_ofNat_of_digit (by decide) (by omega)⟩
  all_goals rw [bitField_ofNat _ _ _ (by omega)]; omega

/-! ## Decoding -/

/-- A word that is not illegal decodes to the command of its fields (30_encoding.md R84, R85). -/
theorem decodeWord_of_legal {v : Word} (h : ¬ IllegalWord v) :
    decodeWord v = .ok (commandOf (bitField v 3 0) (bitField v 15 8) (bitAt v 31)) := by
  cases hd : decodeWord v with
  | error r => exact absurd (illegalWord_of_decodeWord_error hd) h
  | ok i =>
    obtain ⟨-, -, -, -, -, rfl⟩ := decodeWord_ok hd
    rfl

/-- The words that decode are the ones that are not illegal (30_encoding.md R85). -/
theorem decodes_iff_legal {v : Word} : (∃ i, decodeWord v = .ok i) ↔ ¬ IllegalWord v :=
  ⟨fun ⟨_, h⟩ => not_illegalWord_of_decodeWord_ok h, fun h => ⟨_, decodeWord_of_legal h⟩⟩

theorem CommandFields.decodeWord_commandWord {op ch : Nat} (hf : CommandFields op ch) (h : Bool) :
    decodeWord (commandWord op ch h) = .ok (commandOf op ch h) := by
  obtain ⟨hop, hres0, hch, hres1, hhctx⟩ := hf.commandWord_fields h
  obtain ⟨hpos, hmax, -, hno⟩ := hf
  have hlegal : ¬ IllegalWord (commandWord op ch h) := by
    rw [IllegalWord, hop, hres0, hch, hres1]
    omega
  rw [decodeWord_of_legal hlegal, hop, hch, hhctx]

/-- Decoding gives back a well-formed command. -/
theorem decodeWord_encode {i : Instr} (hi : i.wellFormed = true) : decodeWord (encode i) = .ok i := by
  obtain ⟨op, ch, h, hf, rfl⟩ := Instr.exists_commandFields hi
  rw [(hf.encode_commandOf h).left]
  exact hf.decodeWord_commandWord h

/-- Settles O3: decoding reads back the fields that encoding packs. -/
theorem decodeOfEncodeIsTheCommand : Obligations.DecodeOfEncodeIsTheCommand := by
  unfold Obligations.DecodeOfEncodeIsTheCommand
  exact fun i => decodeWord_encode

/-- Settles O4: the fields of a word that decodes are those of a command word, and a word is made of its fields. -/
theorem encodeOfDecodeIsTheWord : Obligations.EncodeOfDecodeIsTheWord := by
  unfold Obligations.EncodeOfDecodeIsTheWord
  intro v i hd
  obtain ⟨hres0, hres1, hpos, hmax, hno, rfl⟩ := decodeWord_ok hd
  have hf : CommandFields (bitField v 3 0) (bitField v 15 8) := ⟨hpos, hmax, bitField_lt v 15 8, hno⟩
  obtain ⟨hencode, hwf⟩ := hf.encode_commandOf (bitAt v 31)
  obtain ⟨hop', hres0', hch', hres1', hhctx'⟩ := hf.commandWord_fields (bitAt v 31)
  have hhctx : bitField (commandWord (bitField v 3 0) (bitField v 15 8) (bitAt v 31)) 31 31 = bitField v 31 31 := by
    rw [← bitAt_toNat, ← bitAt_toNat, hhctx']
  have hword := word_eq_iff_fields.mpr ⟨hop', hres0'.trans hres0.symm, hch', hres1'.trans hres1.symm, hhctx⟩
  exact ⟨hencode.trans hword, hwf⟩

/-! ## The opcode table -/

/-- The fields of a masked word are its fields, masked. -/
theorem bitField_and (v m : Word) (hi lo : Nat) : bitField (v &&& m) hi lo = bitField v hi lo &&& bitField m hi lo := by
  simp only [bitField, BitVec.toNat_and, Nat.and_div_two_pow, Nat.and_mod_two_pow]

/-- A mask that keeps a whole field keeps its value. -/
theorem bitField_and_of_ones {v m : Word} {hi lo : Nat} (hm : bitField m hi lo = 2 ^ (hi + 1 - lo) - 1) :
    bitField (v &&& m) hi lo = bitField v hi lo := by
  rw [bitField_and, hm, Nat.and_two_pow_sub_one_of_lt_two_pow (bitField_lt v hi lo)]

/-- A mask that drops a whole field leaves 0 there. -/
theorem bitField_and_of_zero {v m : Word} {hi lo : Nat} (hm : bitField m hi lo = 0) : bitField (v &&& m) hi lo = 0 := by
  rw [bitField_and, hm, Nat.and_zero]

/-- The rows of commands without a channel: every field but HCTX is fixed (spec/opcode_table.json). -/
theorem matches_plain_row_iff {v : Word} {op : Nat} (hop : op < 16) :
    v &&& 0x7FFFFFFF = BitVec.ofNat 32 op ↔
      bitField v 3 0 = op ∧ bitField v 7 4 = 0 ∧ bitField v 15 8 = 0 ∧ bitField v 30 16 = 0 := by
  rw [word_eq_iff_fields, bitField_and_of_ones (by decide), bitField_and_of_ones (by decide),
    bitField_and_of_ones (by decide), bitField_and_of_ones (by decide), bitField_and_of_zero (by decide)]
  repeat rw [bitField_ofNat _ _ _ (by omega)]
  omega

/-- The rows of commands with a channel: every field but CH and HCTX is fixed (spec/opcode_table.json). -/
theorem matches_channel_row_iff {v : Word} {op : Nat} (hop : op < 16) :
    v &&& 0x7FFF00FF = BitVec.ofNat 32 op ↔ bitField v 3 0 = op ∧ bitField v 7 4 = 0 ∧ bitField v 30 16 = 0 := by
  rw [word_eq_iff_fields, bitField_and_of_ones (by decide), bitField_and_of_ones (by decide),
    bitField_and_of_zero (by decide), bitField_and_of_ones (by decide), bitField_and_of_zero (by decide)]
  repeat rw [bitField_ofNat _ _ _ (by omega)]
  omega

/-- Settles O5: the rows say of the fields what the checks of R84 leave. -/
theorem wordsDecodeExactlyWhenTheyMatchTheOpcodeTable : Obligations.WordsDecodeExactlyWhenTheyMatchTheOpcodeTable := by
  unfold Obligations.WordsDecodeExactlyWhenTheyMatchTheOpcodeTable
  intro v
  have init := matches_plain_row_iff (v := v) (op := 1) (by decide)
  have start := matches_plain_row_iff (v := v) (op := 2) (by decide)
  have stop := matches_plain_row_iff (v := v) (op := 3) (by decide)
  have chper := matches_plain_row_iff (v := v) (op := 4) (by decide)
  have ench := matches_channel_row_iff (v := v) (op := 5) (by decide)
  have disch := matches_channel_row_iff (v := v) (op := 6) (by decide)
  have hrows := or_congr init <| or_congr start <| or_congr stop <| or_congr chper <| or_congr ench disch
  simp only [List.exists_mem_cons_iff, List.not_mem_nil, false_and, exists_false, or_false]
  rw [decodes_iff_legal]
  refine .trans ?_ hrows.symm
  omega

/-! ## Encoded values -/

/-- Settles O2, by evaluation: each word is closed. -/
theorem sampleWordsDecodeToTheirCommands : Obligations.SampleWordsDecodeToTheirCommands := by
  unfold Obligations.SampleWordsDecodeToTheirCommands
  decide

/-- The bit HCTX adds its value to a command word (30_encoding.md R81). -/
theorem commandWord_handler (op ch : Nat) : commandWord op ch true = 0x80000000 + commandWord op ch false := by
  simp only [commandWord, BitVec.ofNat_add, Bool.toNat_false, Bool.toNat_true, Nat.zero_mul, Nat.one_mul,
    BitVec.add_zero]
  exact BitVec.add_comm _ _

/-- A command word's opcode and channel field do not overlap (30_encoding.md R80). -/
theorem commandWord_eq_or {op ch : Nat} (hop : op < 2 ^ 8) (hch : ch < 256) :
    commandWord op ch false = BitVec.ofNat 32 op ||| (BitVec.ofNat 32 ch <<< 8) := by
  apply BitVec.eq_of_toNat_eq
  have hopFits : op % 2 ^ 32 = op := Nat.mod_eq_of_lt (by omega)
  have hchFits : ch % 2 ^ 32 = ch := Nat.mod_eq_of_lt (by omega)
  have hshiftFits : 2 ^ 8 * ch % 2 ^ 32 = 2 ^ 8 * ch := Nat.mod_eq_of_lt (by omega)
  have hor : 2 ^ 8 * ch + op = op ||| 2 ^ 8 * ch := (Nat.two_pow_add_eq_or_of_lt hop ch).trans (Nat.or_comm _ _)
  rw [BitVec.toNat_or, BitVec.toNat_shiftLeft, BitVec.toNat_ofNat, BitVec.toNat_ofNat, Nat.shiftLeft_eq, hopFits,
    hchFits, Nat.mul_comm ch, hshiftFits, ← hor, commandWord, BitVec.toNat_ofNat, Bool.toNat_false]
  omega

/-- Settles O1: the plain words by evaluation, the others by their fields. -/
theorem commandWordsHaveTheirEncodedValues : Obligations.CommandWordsHaveTheirEncodedValues := by
  unfold Obligations.CommandWordsHaveTheirEncodedValues
  refine ⟨by decide, ?channels, by decide, ?handler⟩
  case channels => exact fun c hc => ⟨commandWord_eq_or (by decide) hc, commandWord_eq_or (by decide) hc⟩
  case handler => exact fun c => ⟨commandWord_handler 5 c, commandWord_handler 6 c⟩

end Sys2Proof
end

section
/-! PROOFS. The statements of 10_state.md section 5 about what every step keeps: the constants, and the invariant. First
what a step does to a unit's constants, then that each thing it can do to a unit keeps the invariant of that unit. -/

namespace Sys2Proof.Machine

open Host (Outcome)
open Config (Params)

/-! ## Constants -/

/-- A CLK step writes the prescaler counter and what a tick writes, and nothing else (43_counter_output.md R161). -/
theorem PwmUnit.clk_frame (u : PwmUnit) :
    ∃ pscCnt cnt arr uif ovr chans,
      u.clk = { u with pscCnt := pscCnt, cnt := cnt, arr := arr, uif := uif, ovr := ovr, chans := chans } := by
  obtain ⟨-, h⟩ | ⟨-, -, h⟩ | ⟨-, -, h⟩ := u.clk_cases
  · exact ⟨_, _, _, _, _, _, h⟩
  · exact ⟨_, _, _, _, _, _, h⟩
  · obtain ⟨_, _, _, _, _, ht⟩ := PwmUnit.tick_frame { u with pscCnt := 0 }
    exact ⟨_, _, _, _, _, _, h.trans ht⟩

/-- A DISPATCH step writes the event flags and NOTIFY, and nothing else (60_exceptions.md R187). -/
theorem PwmUnit.dispatch_frame (u : PwmUnit) :
    ∃ uif ovr chans notify, u.dispatch = { u with uif := uif, ovr := ovr, chans := chans, notify := notify } := by
  obtain ⟨-, h⟩ | ⟨-, h⟩ := u.dispatch_cases <;> exact ⟨_, _, _, _, h⟩

theorem PwmUnit.clk_info (u : PwmUnit) : u.clk.info = u.info := by
  obtain ⟨_, _, _, _, _, _, h⟩ := u.clk_frame
  rw [h]

theorem PwmUnit.dispatch_info (u : PwmUnit) : u.dispatch.info = u.info := by
  obtain ⟨_, _, _, _, h⟩ := u.dispatch_frame
  rw [h]

theorem writeReg_info (v : Word) (u : PwmUnit) (r : RegName) : (writeReg v u r).info = u.info := by
  obtain ⟨_, _, _, _, _, _, h, -⟩ := writeReg_frame v u r
  rw [h]

/-- Nothing a step can do to a unit changes its entry of `UNITS` (10_state.md R44). -/
theorem Did.info {s : State} {k : Nat} {u u' : PwmUnit} (h : Did s k u u') : u'.info = u.info := by
  cases h with
  | same => rfl
  | clk => exact u.clk_info
  | dispatch => exact u.dispatch_info
  | store => exact writeReg_info _ u _
  | illegal => rfl
  | command _ hc => exact (unitCommand_frame hc).left

/-- A command on the selected unit writes no parameter. -/
theorem onSelected_params {s t : State} {f : PwmUnit → Outcome PwmUnit Fault Refusal} (h : onSelected s f = .next t) :
    t.params = s.params := by
  obtain ⟨-, u', -, -, rfl⟩ := onSelected_cases h
  rfl

/-- No step writes a parameter (00_scope.md R5). -/
theorem step_params {s t : State} (h : step s = .next t) : t.params = s.params := by
  have hc := step_cases s
  rw [h] at hc
  generalize ho : Outcome.next t = o at hc
  generalize (takeEvent s).1 = e at hc
  cases hc with
  | badRead | badWrite => cases ho
  | read | clk | dispatch | store => cases ho; exact takeEvent_params s
  | @command a n v j off hA hr =>
    obtain ⟨f, hx, -⟩ := executeCommand_reports v { (takeEvent s).2 with sel := j }
    exact (onSelected_params (hx.symm.trans ho.symm)).trans (takeEvent_params s)

/-- Each unit after a step is what the step did to the unit at its position. -/
theorem did_of_step_of_get {s t : State} (h : step s = .next t) {k : Nat} {u' : PwmUnit} (hk' : t.units[k]? = some u') :
    ∃ u, s.units[k]? = some u ∧ Did s k u u' := by
  obtain ⟨hlt, -⟩ := List.getElem?_eq_some_iff.mp hk'
  have hk := List.getElem?_eq_getElem (l := s.units) (step_length h ▸ hlt)
  exact ⟨_, hk, did_of_step h hk hk'⟩

/-- No step changes the units' entries of `UNITS`. -/
theorem step_infos {s t : State} (h : step s = .next t) : t.units.map PwmUnit.info = s.units.map PwmUnit.info := by
  apply List.ext_getElem?
  intro k
  rw [List.getElem?_map, List.getElem?_map]
  cases hk' : t.units[k]? with
  | none =>
    have hlen : s.units.length ≤ k := step_length h ▸ List.getElem?_eq_none_iff.mp hk'
    rw [List.getElem?_eq_none hlen]
  | some u' =>
    obtain ⟨u, hk, hdid⟩ := did_of_step_of_get h hk'
    rw [hk]
    exact congrArg some hdid.info

/-- Settles O50: a step keeps the parameters, and what it does to a unit keeps its constants. -/
theorem constantsNeverChange : Obligations.ConstantsNeverChange := by
  unfold Obligations.ConstantsNeverChange
  exact fun s t h => ⟨step_params h, step_infos h⟩

/-! ## The invariant of a unit, channel by channel -/

/-- What STATE allows of one channel: quiet where the unit does not run, within bounds where it does, and enabled in
Active only (10_state.md R47, R48). -/
structure Channel.Inv (p : Params) (d : DriverState) (c : Channel) : Prop where
  idle    : d.running = false → c.Quiet
  running : d.running = true → c.Bounded p
  enabled : d.running = true → c.enabled = true → d = .active

/-- The channels of a unit that meets the invariant. -/
theorem PwmUnit.Inv.chan {p : Params} {u : PwmUnit} (h : u.Inv p) : ∀ c ∈ u.chans, c.Inv p u.state := fun c hc =>
  ⟨fun hi => (h.idle hi).chans c hc, fun hr => (h.running hr).chans c hc,
    fun hr he => (h.running hr).enabled ⟨c, hc, he⟩⟩

/-- Channels may be replaced by as many that STATE allows. -/
theorem PwmUnit.Inv.withChans {p : Params} {u : PwmUnit} (h : u.Inv p) {cs : List Channel}
    (hlen : cs.length = u.chans.length) (hcs : ∀ c ∈ cs, c.Inv p u.state) :
    ({ u with chans := cs } : PwmUnit).Inv p where
  channels := hlen.trans h.channels
  idle hi := { h.idle hi with chans := fun c hc => (hcs c hc).idle hi }
  running hr :=
    { h.running hr with
      chans := fun c hc => (hcs c hc).running hr
      enabled := fun ⟨c, hc, he⟩ => (hcs c hc).enabled hr he }

/-- One channel may be changed to what STATE allows. -/
theorem PwmUnit.Inv.modifyChannel {p : Params} {u : PwmUnit} (h : u.Inv p) (i : Nat) {f : Channel → Channel}
    (hf : ∀ c, c.Inv p u.state → (f c).Inv p u.state) : (u.modifyChannel i f).Inv p :=
  h.withChans (List.length_modify ..) (forall_mem_modify i h.chan fun c hc _ => hf c (h.chan c hc))

/-! ## Commands keep the invariant -/

/-- The invariant says nothing of ERR. -/
theorem PwmUnit.Inv.withErr {p : Params} {u : PwmUnit} (h : u.Inv p) (e : ErrCode) :
    ({ u with err := e } : PwmUnit).Inv p where
  channels := h.channels
  idle hi := { h.idle hi with }
  running hr := { h.running hr with }

/-- A quiet unit that does not run meets the invariant. -/
theorem PwmUnit.Quiet.inv {p : Params} {u : PwmUnit} (h : u.Quiet) (hs : u.state.running = false)
    (hlen : u.chans.length = p.channels) : u.Inv p where
  channels := hlen
  idle _ := h
  running hr := by simp [hs] at hr

/-- A running unit within the bounds meets the invariant. -/
theorem PwmUnit.Running.inv {p : Params} {u : PwmUnit} (h : u.Running p) (hs : u.state.running = true)
    (hlen : u.chans.length = p.channels) : u.Inv p where
  channels := hlen
  idle hi := by simp [hs] at hi
  running _ := h

/-- What an accepted START programs is within the bounds of R48 (41_lifecycle.md R121, 40_mapping.md R102). -/
theorem PwmUnit.start_running {p : Params} {u : PwmUnit} {t : Timebase} (hp : p.Valid)
    (hmode : ∀ c ∈ u.chans, c.cfgMode ≠ .reserved)
    (ht : computeTimebase p u.cfgFreq.toNat u.cfgPeriod.toNat = some t) :
    (u.stopEffects.latchConfig.programTimer t).release.Running p := by
  obtain ⟨hfreq, hpos, hmax, hdvd, hpsc, hreload, hfit⟩ := computeTimebase_bounds ht
  have hperiod : t.reload + 1 = u.cfgPeriod.toNat := by omega
  have hchans : (u.stopEffects.latchConfig.programTimer t).release.chans = _ := u.start_chans
  exact {
    clken := rfl, cen := rfl, ie := rfl, cfgv := rfl
    periodPos := hpos, periodMax := hmax
    arrSh := hperiod, arr := hperiod.trans_le hmax
    cnt := Nat.zero_le _, psc := hfit, pscCnt := Nat.zero_le _
    freq := (succ_mul_eq_iff_dvd_and_eq_div_sub_one hp.inputClockHz.left).mpr ⟨hfreq, hdvd, hpsc⟩
    chans := by
      rw [hchans]
      exact List.forall_mem_map.mpr fun c hc => ⟨Nat.zero_le _, Nat.zero_le _, hmode c hc⟩
    enabled := by simp [hchans] }

/-- A mappable period keeps a running unit within its bounds (42_channel_ops.md R140). -/
theorem PwmUnit.Running.withPeriod {p : Params} {u : PwmUnit} (h : u.Running p) {n reload : Nat} (hmax : n ≤ p.maxCount)
    (hreload : reload + 1 = n) : ({ u with arrSh := reload, period := n } : PwmUnit).Running p :=
  { h with periodPos := hreload ▸ Nat.succ_pos reload, periodMax := hmax, arrSh := hreload }

/-- ENCH's STATE keeps a running unit within its bounds. -/
theorem PwmUnit.Running.activate {p : Params} {u : PwmUnit} (h : u.Running p) :
    ({ u with state := .active } : PwmUnit).Running p :=
  { h with enabled := fun _ => rfl }

/-- ENCH's write of a channel is allowed in Active: the shadow compare is at most PERIOD (42_channel_ops.md R141). -/
theorem Channel.Inv.enable {p : Params} {c : Channel} (h : c.Inv p .active) (width : Nat) {period : Nat}
    (hmax : period ≤ p.maxCount) : (c.enable width period).Inv p .active where
  idle hi := nomatch hi
  running hr := { h.running hr with ccrSh := (Nat.min_le_right width period).trans hmax }
  enabled _ _ := rfl

/-- DISCH's write of a channel is allowed in every STATE. -/
theorem Channel.Inv.disable {p : Params} {d : DriverState} {c : Channel} (h : c.Inv p d) : c.disable.Inv p d where
  idle hi := { h.idle hi with enabled := rfl, oeSh := rfl, polSh := rfl }
  running hr := { h.running hr with }
  enabled _ he := nomatch he

/-- Every command keeps the invariant of its unit. -/
theorem PwmUnit.Inv.unitCommand {p : Params} {i : Instr} {u u' : PwmUnit} (h : u.Inv p) (hp : p.Valid)
    (hc : unitCommand p i u = .next u') : u'.Inv p := by
  cases i with
  | init hctx =>
    obtain ⟨-, hs, rfl⟩ := initUnit_cases hc
    have hquiet : u.Quiet := h.idle (by rw [hs]; rfl)
    exact (PwmUnit.Quiet.inv (u := { u with state := .stopped }) { hquiet with } rfl h.channels).withErr .ok
  | start hctx =>
    obtain ⟨-, ⟨-, rfl⟩ | ⟨-, -, rfl⟩ | ⟨-, hmode, t, ht, rfl⟩⟩ := startUnit_cases hc
    · exact h.withErr .invstate
    · exact h.withErr .config
    · have hlen : (u.stopEffects.latchConfig.programTimer t).release.chans.length = p.channels := by
        rw [← h.channels]
        exact (congrArg List.length u.start_chans).trans (List.length_map _)
      exact ((PwmUnit.start_running hp hmode ht).inv rfl hlen).withErr .ok
  | stop hctx =>
    obtain ⟨-, ⟨-, rfl⟩ | ⟨-, rfl⟩⟩ := stopUnit_cases hc
    · exact h.withErr .invstate
    · exact u.afterStop_quiet.inv rfl ((List.length_map _).trans h.channels)
  | chper hctx =>
    obtain ⟨-, rfl⟩ | ⟨-, -, rfl⟩ | ⟨hr, t, ht, rfl⟩ := chperUnit_cases hc
    · exact h.withErr .invstate
    · exact h.withErr .config
    · obtain ⟨-, hpos, hmax, -, -, hreload, -⟩ := computeTimebase_bounds ht
      have hperiod : t.reload + 1 = u.arg.toNat := by omega
      exact (((h.running hr).withPeriod hmax hperiod).inv hr h.channels).withErr .ok
  | ench hctx ch =>
    obtain ⟨-, rfl⟩ | ⟨-, -, rfl⟩ | ⟨hr, -, rfl⟩ := enchUnit_cases hc
    · exact h.withErr .invstate
    · exact h.withErr .invch
    · have hactive := (h.running hr).activate.inv rfl h.channels
      exact (hactive.modifyChannel ch fun c hci => hci.enable _ (h.running hr).periodMax).withErr .ok
  | disch hctx ch =>
    obtain ⟨-, rfl⟩ | ⟨-, -, rfl⟩ | ⟨-, -, rfl⟩ := dischUnit_cases hc
    · exact h.withErr .invstate
    · exact h.withErr .invch
    · exact (h.modifyChannel ch fun c hci => hci.disable).withErr .ok

/-! ## The agents keep the invariant -/

/-- A unit whose Counter or Dispatcher is enabled runs: an idle one is quiet. -/
theorem PwmUnit.Inv.running_of_enabled {p : Params} {u : PwmUnit} (h : u.Inv p)
    (hen : u.clkEnabled = true ∨ u.dispatchEnabled = true) : u.state.running = true := by
  by_contra hr
  have hquiet := h.idle (by simpa using hr)
  simp [hquiet.clkEnabled, hquiet.dispatchEnabled] at hen

/-- A tick keeps a running unit within its bounds: a wrap takes over the shadow reload, which is below PERIOD, and the
shadow compares, which are bounded as the active ones are (43_counter_output.md R162). -/
theorem PwmUnit.Running.tick {p : Params} {u : PwmUnit} (h : u.Running p) : u.tick.Running p := by
  obtain ⟨hcount, hwrap⟩ := tickCountsOrWraps u
  by_cases hc : u.cnt = u.arr
  · rw [hwrap hc]
    exact { h with
      arr := h.arrSh.trans_le h.periodMax
      cnt := Nat.zero_le _
      chans := List.forall_mem_map.mpr fun c hmem => { h.chans c hmem with ccr := (h.chans c hmem).ccrSh }
      enabled := by simpa using h.enabled }
  · rw [hcount hc]
    exact { h with
      cnt := Nat.lt_of_le_of_ne h.cnt hc
      chans := List.forall_mem_map.mpr fun c hmem => { h.chans c hmem with }
      enabled := by simpa using h.enabled }

/-- An input-clock cycle keeps the invariant of its unit. -/
theorem PwmUnit.Inv.clk {p : Params} {u : PwmUnit} (h : u.Inv p) : u.clk.Inv p := by
  obtain ⟨-, hu⟩ | ⟨hen, hlt, hu⟩ | ⟨hen, -, hu⟩ := u.clk_cases
  · exact hu.symm ▸ h
  · have hr := h.running_of_enabled (.inl hen)
    have hrun : ({ u with pscCnt := u.pscCnt + 1 } : PwmUnit).Running p := { h.running hr with pscCnt := hlt }
    exact hu.symm ▸ hrun.inv hr h.channels
  · have hr := h.running_of_enabled (.inl hen)
    have hrun : ({ u with pscCnt := 0 } : PwmUnit).Running p := { h.running hr with pscCnt := Nat.zero_le _ }
    have hstate : ({ u with pscCnt := 0 } : PwmUnit).tick.state.running = true := by
      obtain ⟨_, _, _, _, _, ht⟩ := PwmUnit.tick_frame { u with pscCnt := 0 }
      rw [ht]
      exact hr
    have hlen : ({ u with pscCnt := 0 } : PwmUnit).tick.chans.length = p.channels := by
      rw [PwmUnit.tick_chans, List.length_map]
      exact h.channels
    exact hu.symm ▸ hrun.tick.inv hstate hlen

/-- Clearing the flags keeps a running unit within its bounds. -/
theorem PwmUnit.Running.clearFlags {p : Params} {u : PwmUnit} (h : u.Running p) : u.clearFlags.Running p :=
  { h with
    chans := List.forall_mem_map.mpr fun c hmem => { h.chans c hmem with }
    enabled := by simpa [PwmUnit.clearFlags] using h.enabled }

/-- A DISPATCH step keeps the invariant of its unit. -/
theorem PwmUnit.Inv.dispatch {p : Params} {u : PwmUnit} (h : u.Inv p) : u.dispatch.Inv p := by
  obtain ⟨-, hu⟩ | ⟨hen, hu⟩ := u.dispatch_cases
  · exact hu.symm ▸ h
  · have hr := h.running_of_enabled (.inr hen)
    have hrun : ({ u.clearFlags with notify := u.notify ++ u.notes } : PwmUnit).Running p :=
      { (h.running hr).clearFlags with }
    exact hu.symm ▸ hrun.inv hr ((List.length_map _).trans h.channels)

/-- The invariant says nothing of a channel's staging fields. -/
theorem Channel.Inv.stage {p : Params} {d : DriverState} {c : Channel} (h : c.Inv p d) (mode : ChannelMode)
    (ccb : Bool) : ({ c with cfgMode := mode, cfgCcb := ccb } : Channel).Inv p d where
  idle hi := { h.idle hi with }
  running hr := { h.running hr with }
  enabled := h.enabled

/-- The invariant says nothing of ARG and the staging registers, which are all that a write away from CMD stores. -/
theorem PwmUnit.Inv.writeReg {p : Params} {u : PwmUnit} (h : u.Inv p) (v : Word) (r : RegName) :
    (writeReg v u r).Inv p := by
  cases r
  case chCfg i => exact h.modifyChannel i fun c hc => hc.stage _ _
  case arg | cfgFreq | cfgPeriod | cfgCtrl | cfgRaw =>
    exact ⟨h.channels, fun hi => { h.idle hi with }, fun hr => { h.running hr with }⟩
  all_goals exact h

/-! ## The obligations -/

/-- Nothing a step can do to a unit breaks its invariant. -/
theorem Did.inv {s : State} {k : Nat} {u u' : PwmUnit} (h : Did s k u u') (hp : s.params.Valid) (hu : u.Inv s.params) :
    u'.Inv s.params := by
  cases h with
  | same => exact hu
  | clk => exact hu.clk
  | dispatch => exact hu.dispatch
  | store => exact hu.writeReg _ _
  | illegal => exact hu.withErr .illegal
  | command _ hc => exact hu.unitCommand hp hc

/-- A step keeps the invariant of the machine. -/
theorem State.Inv.step {s t : State} (hI : s.Inv) (h : step s = .next t) : t.Inv where
  params := (step_params h).symm ▸ hI.params
  infos := by
    rw [step_params h, step_infos h]
    exact hI.infos
  units u' hu' := by
    obtain ⟨k, hk'⟩ := List.mem_iff_getElem?.mp hu'
    obtain ⟨u, hk, hdid⟩ := did_of_step_of_get h hk'
    rw [step_params h]
    exact hdid.inv hI.params (hI.units u (List.mem_of_getElem? hk))

/-- Settles O53: a step keeps the constants, and each thing it can do to a unit keeps that unit's invariant. -/
theorem everyStepKeepsTheInvariant : Obligations.EveryStepKeepsTheInvariant := by
  unfold Obligations.EveryStepKeepsTheInvariant
  exact fun s t hI h => hI.step h

/-- The sample parameters and units are in the ranges of 00_scope.md R5. -/
theorem sample_valid : Config.sampleParams.Valid ∧ Config.UnitsValid Config.sampleParams Config.sampleUnits :=
  ⟨by constructor <;> decide, by constructor <;> decide⟩

/-- Settles O54: the reset units are quiet, and the sample parameters are in range. -/
theorem resetMeetsTheInvariant : Obligations.ResetMeetsTheInvariant := by
  unfold Obligations.ResetMeetsTheInvariant
  exact ⟨fun p us => State.resetWith_inv, State.resetWith_inv sample_valid.left sample_valid.right⟩

end Sys2Proof.Machine
end

section
/-! PROOFS. The statements of 10_state.md section 4 and 20_memory.md about reads and writes of registers. First an
address outside every window, then which register stands at which offset, the fields of the constant words, and what a
write stores. -/

namespace Sys2Proof.Machine

open Config (Params)

/-! ## Addresses outside every window -/

/-- An address in no unit's window is located nowhere. -/
theorem locate_eq_none {a : Nat} {us : List PwmUnit} (h : ∀ u ∈ us, u.owns a = false) : locate a us = none := by
  induction us with
  | nil => rfl
  | cons u us ih =>
    rw [List.forall_mem_cons] at h
    simp [locate, h.left, ih h.right]

/-- Settles O10: an address in no window is admitted nowhere. -/
theorem accessOutsideEveryWindowIsABusError : Obligations.AccessOutsideEveryWindowIsABusError := by
  unfold Obligations.AccessOutsideEveryWindowIsABusError
  intro s a n v rest hout
  have hnone : locate a s.units = none := locate_eq_none fun u hu => by
    have hu := hout u hu
    exact decide_eq_false (by unfold Config.windowBytes; omega)
  exact step_placed_of_not_admitted (by simp only [admitted, hnone]) v rest

/-! ## The register at an offset -/

/-- Below the channel rows a register is that of a fixed row, or reserved (10_state.md R40). -/
theorem regAt_fixed (p : Params) {off : Nat} (h : off < 0x100) :
    (off, regAt p off) ∈ fixedRegisters ∨ regAt p off = .reserved := by
  rw [regAt, if_pos h]
  split
  · next row hf =>
    have hoff : row.1 = off := by simpa using List.find?_some hf
    exact .inl (hoff ▸ List.mem_of_find?_eq_some hf)
  · exact .inr rfl

/-- Past the fixed rows and below the channel rows every offset is reserved (10_state.md R40). -/
theorem regAt_gap (p : Params) {off : Nat} (hlo : 0x4C ≤ off) (hhi : off < 0x100) : regAt p off = .reserved := by
  have hlast : ∀ row ∈ fixedRegisters, row.1 < 0x4C := by decide
  obtain hrow | hres := regAt_fixed p hhi
  · exact absurd (hlast _ hrow) (Nat.not_lt.mpr hlo)
  · exact hres

/-- Past the last channel row every offset is reserved (10_state.md R40). -/
theorem regAt_past_channels {p : Params} {off : Nat} (h : 0x100 + 0x10 * p.channels ≤ off) :
    regAt p off = .reserved := by
  rw [regAt, if_neg (by omega), if_neg (by omega)]

/-- The offsets of an existing channel's row are in the window (10_state.md R40). -/
theorem channel_offset_lt {p : Params} {i r : Nat} (hp : p.Valid) (hi : i < p.channels) (hr : r < 0x10) :
    0x100 + 0x10 * i + r < Config.windowBytes := by
  have hmax := hp.channels.2
  unfold Config.windowBytes
  omega

/-- A placed read of a register of an existing channel returns that register's view of the channel. -/
theorem readsAs_channel {s : State} (hI : s.Inv) {k i r : Nat} {u : PwmUnit} {c : Channel} (hk : s.units[k]? = some u)
    (hc : u.chans[i]? = some c) (hr : r < 0x10) (h4 : r % 4 = 0) {w : Word}
    (hw : readReg s.params u (channelRegister i r) = w) : s.ReadsAs k (0x100 + 0x10 * i + r) w := by
  obtain ⟨hlt, -⟩ := List.getElem?_eq_some_iff.mp hc
  have hi : i < s.params.channels := (hI.units u (List.mem_of_getElem? hk)).channels ▸ hlt
  refine readsAs_of_readReg hI hk (channel_offset_lt hI.params hi hr) (by omega) ?_
  rw [regAt_channel hi hr]
  exact hw

/-- A placed read of a reserved offset returns 0. -/
theorem readsAs_reserved {s : State} (hI : s.Inv) {k off : Nat} {u : PwmUnit} (hk : s.units[k]? = some u)
    (ho : off < Config.windowBytes) (h4 : off % 4 = 0) (hres : regAt s.params off = .reserved) : s.ReadsAs k off 0 :=
  readsAs_of_readReg hI hk ho h4 (by rw [hres]; rfl)

/-! ## ENABLED and the other fields -/

/-- Bit `i` of ENABLED is channel `i`'s enable bit, 0 where there is none (10_state.md R22). -/
theorem PwmUnit.enabledMask_bit {u : PwmUnit} (hlen : u.chans.length ≤ 16) (i : Nat) :
    bitAt (BitVec.ofNat 32 u.enabledMask) i = ((u.chans[i]?).map Channel.enabled).getD false := by
  rw [bitAt, BitVec.getLsbD_ofNat, PwmUnit.enabledMask, maskOf_testBit, List.getElem?_map]
  by_cases hi : i < 32
  · simp [hi]
  · have hnone : u.chans[i]? = none := List.getElem?_eq_none (by omega)
    simp [hnone]

/-- A register of one bit. -/
theorem ofNat_bool_toNat (b : Bool) : BitVec.ofNat 32 b.toNat = if b then 1 else 0 := by cases b <;> rfl

/-- Settles O11: what stands at each offset is read off the register map, and ENABLED bit by bit off the mask. -/
theorem fieldRegistersReadTheirFields : Obligations.FieldRegistersReadTheirFields := by
  unfold Obligations.FieldRegistersReadTheirFields
  intro s k u hI hk
  have hu := hI.units u (List.mem_of_getElem? hk)
  have hlen := hu.chans_length_le hI.params
  have hread {off : Nat} {w : Word} (ho : off < Config.windowBytes) (h4 : off % 4 = 0)
      (hw : readReg s.params u (regAt s.params off) = w) : s.ReadsAs k off w := readsAs_of_readReg hI hk ho h4 hw
  refine ⟨?staged, ?timer, ?enabled, ?compares, ?gap, ?past⟩
  case staged =>
    refine ⟨?_, ?_, ?_, ?_, ?_, hread (by decide) (by decide) (ofNat_bool_toNat u.cfgPcb), ?_⟩
    all_goals exact hread (by decide) (by decide) rfl
  case timer =>
    refine ⟨?_, ?_, ?_, ?_, ?_, ?_, hread (by decide) (by decide) (ofNat_bool_toNat u.actPcb)⟩
    all_goals exact hread (by decide) (by decide) rfl
  case enabled =>
    refine ⟨_, hread (by decide) (by decide) rfl, fun i c hc => ?_, fun i hi => ?_⟩
    · exact (PwmUnit.enabledMask_bit hlen i).trans (by rw [hc]; rfl)
    · have hnone : u.chans[i]? = none := List.getElem?_eq_none (hu.channels.trans_le hi)
      exact (PwmUnit.enabledMask_bit hlen i).trans (by rw [hnone]; rfl)
  case compares =>
    intro i c hc
    exact ⟨readsAs_channel hI hk hc (by decide) (by decide) (PwmUnit.channelWord_of_get hc _),
      readsAs_channel hI hk hc (by decide) (by decide) (PwmUnit.channelWord_of_get hc _)⟩
  case gap =>
    intro off h4 hlo hhi
    exact readsAs_reserved hI hk (hhi.trans (by decide)) h4 (regAt_gap s.params hlo hhi)
  case past =>
    intro off h4 hlo hhi
    exact readsAs_reserved hI hk hhi h4 (regAt_past_channels hlo)

/-! ## UNIT_INFO and the notification word -/

/-- UNIT_INFO field by field (10_state.md R44). -/
theorem PwmUnit.unitInfoWord_fields {p : Params} (hp : p.Valid) (u : PwmUnit) :
    bitField (u.unitInfoWord p) 7 0 = u.info.id.toNat ∧ bitField (u.unitInfoWord p) 15 8 = p.channels ∧
      bitField (u.unitInfoWord p) 23 16 = p.counterWidth ∧ bitField (u.unitInfoWord p) 31 24 = u.info.prio.toNat := by
  have hchannels := hp.channels
  have hwidth := hp.counterWidth
  have hid := u.info.id.isLt
  have hprio := u.info.prio.isLt
  rw [PwmUnit.unitInfoWord_of_valid hp]
  refine ⟨?_, ?_, ?_, ?_⟩
  all_goals rw [bitField_ofNat _ _ _ (by omega)]; omega

/-- Settles O14: the constants are within their fields. -/
theorem unitInfoReadsTheConstants : Obligations.UnitInfoReadsTheConstants := by
  unfold Obligations.UnitInfoReadsTheConstants
  intro s k u hI hk
  have hwidth := hI.params.pscWidth
  refine ⟨⟨_, readsAs_of_readReg hI hk (by decide) (by decide) rfl, PwmUnit.unitInfoWord_fields hI.params u⟩,
    ⟨_, readsAs_of_readReg hI hk (by decide) (by decide) rfl, ?low, ?high⟩⟩
  all_goals exact (bitField_ofNat _ _ _ (by omega)).trans (by omega)

theorem NotifyKind.code_lt (k : NotifyKind) : k.code < 3 := by cases k <;> decide

/-- The numbers of KIND (60_exceptions.md R189). -/
theorem NotifyKind.code_eq (k : NotifyKind) :
    k.code = match k with
      | .channel => 0
      | .period => 1
      | .fault => 2 := by cases k <;> rfl

/-- Settles O47: the fields of the word do not overlap. -/
theorem notificationWordHasItsFields : Obligations.NotificationWordHasItsFields := by
  unfold Obligations.NotificationWordHasItsFields
  intro r hch
  have hkind := r.kind.code_lt
  have hid := r.unitId.isLt
  unfold Notification.word
  refine ⟨?ch, .trans ?kind r.kind.code_eq, ?rest, ?unitId, ?high⟩
  all_goals rw [bitField_ofNat _ _ _ (by omega)]; omega

/-! ## Writes -/

/-- What a write of `v` to CH_CFG stores in its channel (20_memory.md R63). -/
def Channel.writeCfg (v : Word) (c : Channel) : Channel :=
  { c with cfgMode := ChannelMode.ofCode (bitField v 1 0), cfgCcb := bitAt v 2 }

/-- A write of CH_CFG of an existing channel stores in that channel. -/
theorem writeReg_chCfg (v : Word) {u : PwmUnit} {i : Nat} {c : Channel} (hc : u.chans[i]? = some c) :
    writeReg v u (.chCfg i) = { u with chans := u.chans.set i (c.writeCfg v) } :=
  PwmUnit.modifyChannel_of_get (Channel.writeCfg v) hc

/-- The mode that a write of CH_CFG stages is that of the number written (10_state.md R43). -/
theorem Channel.writeCfg_mode (v : Word) (c : Channel) : (c.writeCfg v).cfgMode.code = bitField v 1 0 :=
  ChannelMode.code_ofCode (bitField_lt v 1 0)

/-- CH_CFG reads back the three bits written to it (10_state.md R43). -/
theorem Channel.writeCfg_cfgWord (v : Word) (c : Channel) : (c.writeCfg v).cfgWord = v &&& 7 := by
  have hbit : (c.writeCfg v).cfgCcb.toNat = bitField v 2 2 := bitAt_toNat v 2
  apply BitVec.eq_of_toNat_eq
  rw [Channel.cfgWord, Channel.writeCfg_mode, hbit, BitVec.toNat_and, BitVec.toNat_ofNat]
  have hmask : v.toNat &&& 7 = v.toNat % 2 ^ 3 := Nat.and_two_pow_sub_one_eq_mod v.toNat 3
  change _ = v.toNat &&& 7
  rw [hmask]
  simp only [bitField]
  omega

/-- The invariant of the machine after one unit is replaced by one with the same constants. -/
theorem State.Inv.setUnit {s : State} (hI : s.Inv) {k : Nat} {u u' : PwmUnit} (hk : s.units[k]? = some u)
    (hinfo : u'.info = u.info) (hu' : u'.Inv s.params) : State.Inv { s with units := s.units.set k u' } where
  params := hI.params
  infos := by
    have hsame : (s.units.map PwmUnit.info).set k u.info = s.units.map PwmUnit.info :=
      set_eq_self_of_get (by rw [List.getElem?_map, hk]; rfl)
    rw [List.map_set, hinfo, hsame]
    exact hI.infos
  units := forall_mem_set k hI.units hu'

/-- Settles O16: the write stores in one channel, and CH_CFG is a view of the three bits stored. -/
theorem channelConfigKeepsItsThreeBits : Obligations.ChannelConfigKeepsItsThreeBits := by
  unfold Obligations.ChannelConfigKeepsItsThreeBits
  intro s k u i c v rest hI hk hc
  have hu := hI.units u (List.mem_of_getElem? hk)
  obtain ⟨hlt, -⟩ := List.getElem?_eq_some_iff.mp hc
  have hi : i < s.params.channels := hu.channels ▸ hlt
  have hreg : regAt s.params (0x100 + 0x10 * i) = .chCfg i := regAt_channel hi (r := 0) (by decide)
  have hwrite := writeReg_chCfg v hc
  have hoff := channel_offset_lt hI.params hi (r := 0) (by decide)
  have hstep := writesAs_writeReg hI k hoff (by omega) (by omega) v u rest hk
  simp only [Nat.add_zero, hreg, hwrite] at hstep
  refine ⟨c.writeCfg v, hstep, rfl, ?mode, rfl, ?readBack⟩
  case mode => exact (Channel.writeCfg_mode v c).symm.trans (ChannelMode.code_eq _)
  case readBack =>
    have hI' := hI.setUnit (u' := { u with chans := u.chans.set i (c.writeCfg v) }) hk rfl
      (hwrite ▸ hu.writeReg v (.chCfg i))
    obtain ⟨hkt, -⟩ := List.getElem?_eq_some_iff.mp hk
    have hk' := List.getElem?_set_self (a := { u with chans := u.chans.set i (c.writeCfg v) }) hkt
    have hc' : (u.chans.set i (c.writeCfg v))[i]? = some (c.writeCfg v) := List.getElem?_set_self hlt
    exact readsAs_channel hI' hk' hc' (r := 0) (by decide) (by decide)
      ((PwmUnit.channelWord_of_get hc' _).trans (Channel.writeCfg_cfgWord v c))

/-- Away from CMD, ARG, the staging registers and CH_CFG, a register ignores a write (20_memory.md R63). -/
theorem writeReg_ignored (p : Params) (v : Word) (u : PwmUnit) {off : Nat}
    (hfixed : off ∉ [0x000, 0x004, 0x014, 0x018, 0x01C, 0x020])
    (hrow : ¬ (0x100 ≤ off ∧ off % 0x10 = 0 ∧ off < 0x100 + 0x10 * p.channels)) :
    writeReg v u (regAt p off) = u := by
  by_cases hlt : off < 0x100
  · have hignored : ∀ row ∈ fixedRegisters, row.1 ∉ [0x000, 0x004, 0x014, 0x018, 0x01C, 0x020] →
        writeReg v u row.2 = u := by simp [fixedRegisters, writeReg]
    obtain hmem | hres := regAt_fixed p hlt
    · exact hignored _ hmem hfixed
    · rw [hres]; rfl
  · by_cases hch : (off - 0x100) / 0x10 < p.channels
    · rw [regAt, if_neg hlt, if_pos hch, channelRegister, if_neg (by omega)]
      repeat' split
      all_goals rfl
    · rw [regAt, if_neg hlt, if_neg hch]; rfl

/-- Settles O17: a write stores what `writeReg` says of the register at its offset. -/
theorem registerWritesStoreOrAreIgnored : Obligations.RegisterWritesStoreOrAreIgnored := by
  unfold Obligations.RegisterWritesStoreOrAreIgnored
  intro s k v hI
  constructor
  · refine ⟨?_, ?_, ?_, ?_, ?_⟩
    all_goals exact writesAs_writeReg hI k (by decide) (by decide) (by decide) v
  · intro off h4 ho hfixed hrow u rest hk
    have hcmd : off ≠ 0 := by rintro rfl; simp at hfixed
    have hsame : u = writeReg v u (regAt s.params off) := (writeReg_ignored s.params v u hfixed hrow).symm
    exact (writesAs_writeReg hI k ho h4 hcmd v u rest hk).trans (by simp only [← hsame])

end Sys2Proof.Machine
end

section
/-! PROOFS. The statements of 41_lifecycle.md and 42_channel_ops.md about all commands: their frame, the STATE they lead
to, and what of a unit they leave to each other. First what a command that goes on did to the selected unit. -/

namespace Sys2Proof.Machine

open Config (Params)

/-- A command that goes on answered a next unit, which was put back. -/
theorem exec_next_cases {s t : State} {i : Instr} {u : PwmUnit} (hu : s.units[s.sel]? = some u)
    (h : exec i s = .next t) : ∃ u', unitCommand s.params i u = .next u' ∧ t = s.putUnit u' := by
  rw [exec_eq_onSelected] at h
  obtain ⟨u₁, u', hu₁, hc, ht⟩ := onSelected_cases h
  obtain rfl : u = u₁ := Option.some.inj (hu.symm.trans hu₁)
  exact ⟨u', hc, ht⟩

/-- The selected unit after a command that goes on is the one its command answered. -/
theorem unitCommand_of_exec {s t : State} {i : Instr} {u u' : PwmUnit} (hu : s.units[s.sel]? = some u)
    (hu' : t.units[s.sel]? = some u') (h : exec i s = .next t) : unitCommand s.params i u = .next u' := by
  obtain ⟨u₁, hc, rfl⟩ := exec_next_cases hu h
  obtain rfl : u₁ = u' := Option.some.inj ((State.putUnit_get_self u₁ hu).symm.trans hu')
  exact hc

/-- Settles O30: a command puts one unit back, whose host fields and constants it kept. -/
theorem commandsFrame : Obligations.CommandsFrame := by
  unfold Obligations.CommandsFrame
  intro s t i u hu h
  obtain ⟨u', hc, rfl⟩ := exec_next_cases hu h
  exact ⟨rfl, List.length_set, fun k hk => State.putUnit_get_ne s u' hk,
    u', State.putUnit_get_self u' hu, unitCommand_frame hc⟩

/-- A command on a unit moves STATE by the table where it reports OK, and keeps it where it raises (41_lifecycle.md
R123, 60_exceptions.md R181). -/
theorem unitCommand_state {p : Params} {i : Instr} {u u' : PwmUnit} (h : unitCommand p i u = .next u') :
    u'.state = if u'.err = .ok then successState i u.state else u.state := by
  cases i with
  | init hctx => obtain ⟨-, -, rfl⟩ := initUnit_cases h; rfl
  | start hctx => obtain ⟨-, ⟨-, rfl⟩ | ⟨-, -, rfl⟩ | ⟨-, -, t, -, rfl⟩⟩ := startUnit_cases h <;> rfl
  | stop hctx => obtain ⟨-, ⟨-, rfl⟩ | ⟨-, rfl⟩⟩ := stopUnit_cases h <;> rfl
  | chper hctx => obtain ⟨-, rfl⟩ | ⟨-, -, rfl⟩ | ⟨-, t, -, rfl⟩ := chperUnit_cases h <;> rfl
  | ench hctx ch => obtain ⟨-, rfl⟩ | ⟨-, -, rfl⟩ | ⟨-, -, rfl⟩ := enchUnit_cases h <;> rfl
  | disch hctx ch => obtain ⟨-, rfl⟩ | ⟨-, -, rfl⟩ | ⟨-, -, rfl⟩ := dischUnit_cases h <;> rfl

/-- Settles O31: the table is that of the command on the selected unit. -/
theorem commandsMoveStateByTheTable : Obligations.CommandsMoveStateByTheTable := by
  unfold Obligations.CommandsMoveStateByTheTable
  exact fun s t i u u' hu h hu' => unitCommand_state (unitCommand_of_exec hu hu' h)

/-! ## STOP and the last time the unit was Stopped -/

/-- A quiet channel with its staging fields blanked is a channel after reset. -/
theorem Channel.Quiet.blank_eq_reset {c : Channel} (h : c.Quiet) :
    { c with cfgMode := .disabled, cfgCcb := false } = Channel.reset := by
  obtain ⟨henabled, hactMode, hactCcb, hccr, hccrSh, hoe, hoeSh, hpol, hpolSh, hccif⟩ := h
  cases c
  simp_all [Channel.reset]

/-- A quiet unit but for its host fields is the unit after reset, but for STATE: nothing of its past is left. -/
theorem PwmUnit.Quiet.withoutHostFields_eq {u : PwmUnit} (h : u.Quiet) {p : Params}
    (hlen : u.chans.length = p.channels) : u.withoutHostFields = { PwmUnit.reset p u.info with state := u.state } := by
  have hchans : u.chans.map (fun c => { c with cfgMode := .disabled, cfgCcb := false }) =
      List.replicate p.channels Channel.reset :=
    hlen ▸ List.map_eq_replicate_iff.mpr fun c hc => (h.chans c hc).blank_eq_reset
  obtain ⟨hclken, hcen, hie, hcfgv, hperiod, hactFreq, hactPcb, hrawAct, hpsc, hpscCnt, hcnt, harr, harrSh, huif, hovr,
    -⟩ := h
  simp only [PwmUnit.withoutHostFields, PwmUnit.reset, hchans, hclken, hcen, hie, hcfgv, hperiod, hactFreq, hactPcb,
    hrawAct, hpsc, hpscCnt, hcnt, harr, harrSh, huif, hovr]

/-- Settles O21: both units are quiet and Stopped, with the same constants. -/
theorem stopRestoresTheStoppedUnit : Obligations.StopRestoresTheStoppedUnit := by
  unfold Obligations.StopRestoresTheStoppedUnit
  intro s₀ s t k u₀ u u' hI₀ hk₀ hs₀ hI hp hsel hk hinfo hs h hk'
  subst hsel
  have hu₀ := hI₀.units u₀ (List.mem_of_getElem? hk₀)
  have hu := hI.units u (List.mem_of_getElem? hk)
  have hstop : exec (.stop false) s = .next (s.putUnit u.afterStop) := exec_stop_initialized hk hs
  obtain rfl : s.putUnit u.afterStop = t := by simpa [hstop] using h
  obtain rfl : u.afterStop = u' := Option.some.inj ((State.putUnit_get_self _ hk).symm.trans hk')
  have hquiet₀ : u₀.Quiet := hu₀.idle (by rw [hs₀]; rfl)
  have hlen : u.afterStop.chans.length = s₀.params.channels := hp ▸ (List.length_map _).trans hu.channels
  rw [hquiet₀.withoutHostFields_eq hu₀.channels, u.afterStop_quiet.withoutHostFields_eq hlen, hs₀, ← hinfo]
  rfl

/-! ## CHPER, ENCH and DISCH -/

/-- Settles O25: the channels of a unit that meets the invariant are numbered below CHANNELS, so an accepted number is
that of a channel. -/
theorem channelCommandsAlwaysComplete : Obligations.ChannelCommandsAlwaysComplete := by
  unfold Obligations.ChannelCommandsAlwaysComplete
  intro s u h ch hI hu
  have hlen := (hI.units u (List.mem_of_getElem? hu)).channels
  have hexists : (∃ c, u.chans[ch]? = some c) ↔ ch < s.params.channels := by
    rw [← Option.isSome_iff_exists, isSome_getElem?, hlen]
  refine ⟨hexists, fun hs => ?_⟩
  by_cases hch : ch < s.params.channels
  · obtain ⟨c, hc⟩ := hexists.mpr hch
    rw [if_pos hch]
    have hench := exec_eq_next hu (i := .ench h ch) (enchUnit_accepted hs hch hc)
    have hdisch := exec_eq_next hu (i := .disch h ch) (dischUnit_accepted hs hch hc)
    exact ⟨_, _, hench, hdisch, rfl, rfl⟩
  · have hout := Nat.le_of_not_lt hch
    rw [if_neg hch]
    exact ⟨_, _, exec_eq_next hu (enchUnit_invch hs hout), exec_eq_next hu (dischUnit_invch hs hout), rfl, rfl⟩

/-- Changing one element in a way that a view does not show keeps the view of the list. -/
theorem map_modify_of_view_eq {α β : Type} {f : α → α} {view : α → β} {l : List α} {k : Nat}
    (hf : ∀ a, view (f a) = view a) : (l.modify k f).map view = l.map view := by
  apply List.ext_getElem?
  intro j
  simp only [List.getElem?_map, List.getElem?_modify]
  cases l[j]? with
  | none => rfl
  | some a => split <;> simp [hf]

/-- Settles O27: of a unit, CHPER writes ARR_SH and PERIOD, and ENCH and DISCH the shadows and ENABLED bit of one
channel. -/
theorem periodAndChannelCommandsKeepApart : Obligations.PeriodAndChannelCommandsKeepApart := by
  unfold Obligations.PeriodAndChannelCommandsKeepApart
  intro s t u u' h ch hu hu'
  refine ⟨fun hx => ?chper, fun hx => ?channel⟩
  case chper =>
    obtain ⟨-, rfl⟩ | ⟨-, -, rfl⟩ | ⟨-, _, -, rfl⟩ := chperUnit_cases (unitCommand_of_exec hu hu' hx)
    all_goals exact ⟨rfl, rfl, rfl⟩
  case channel =>
    obtain hx | hx := hx
    · obtain ⟨-, rfl⟩ | ⟨-, -, rfl⟩ | ⟨-, -, rfl⟩ := enchUnit_cases (unitCommand_of_exec hu hu' hx)
      case inr.inr => exact ⟨rfl, rfl, rfl, rfl, map_modify_of_view_eq fun _ => rfl⟩
      all_goals exact ⟨rfl, rfl, rfl, rfl, rfl⟩
    · obtain ⟨-, rfl⟩ | ⟨-, -, rfl⟩ | ⟨-, -, rfl⟩ := dischUnit_cases (unitCommand_of_exec hu hu' hx)
      case inr.inr => exact ⟨rfl, rfl, rfl, rfl, map_modify_of_view_eq fun _ => rfl⟩
      all_goals exact ⟨rfl, rfl, rfl, rfl, rfl⟩

end Sys2Proof.Machine
end

section
/-! PROOFS. The statements of 00_scope.md, 10_state.md R46 and 60_exceptions.md R185 about every step of the machine:
what can change a unit, what a unit depends on, and which steps fault. -/

namespace Sys2Proof.Machine

open Host (Outcome)
open Config (Params)

/-! ## What can change a unit -/

/-- A position holds a unit after a step exactly when it held one before. -/
theorem step_get_eq_none_iff {s t : State} (h : step s = .next t) {k : Nat} :
    t.units[k]? = none ↔ s.units[k]? = none := by
  rw [List.getElem?_eq_none_iff, List.getElem?_eq_none_iff, step_length h]

/-- A step leaves a unit as it is, unless it is that unit's CLK, its DISPATCH or a write admitted to its window. -/
theorem Did.eq_or_own_event {s : State} {k : Nat} {u u' : PwmUnit} (h : Did s k u u') :
    u' = u ∨ s.nextEvent = .clk k ∨ s.nextEvent = .dispatch k ∨
      ∃ a n v off, s.nextEvent = .host (.write a n v) ∧ admitted s a n = some (k, off) := by
  cases h with
  | same => exact .inl rfl
  | clk he => exact .inr (.inl he)
  | dispatch he => exact .inr (.inr (.inl he))
  | store he hA _ => exact .inr (.inr (.inr ⟨_, _, _, _, he, hA⟩))
  | illegal hw _ =>
    obtain ⟨a, n, he, hA⟩ := hw
    exact .inr (.inr (.inr ⟨a, n, _, 0, he, hA⟩))
  | command hruns _ =>
    obtain ⟨v, ⟨a, n, he, hA⟩, -⟩ := hruns
    exact .inr (.inr (.inr ⟨a, n, v, 0, he, hA⟩))

/-- Settles O48: of all that a step can do to a unit, only an event of its own changes it. -/
theorem aUnitChangesOnlyByItsOwnSteps : Obligations.AUnitChangesOnlyByItsOwnSteps := by
  unfold Obligations.AUnitChangesOnlyByItsOwnSteps
  intro s t k h hne
  cases hk' : t.units[k]? with
  | none => exact absurd (hk'.trans ((step_get_eq_none_iff h).mp hk').symm) hne
  | some u' =>
    obtain ⟨u, hk, hdid⟩ := did_of_step_of_get h hk'
    obtain rfl | hown := hdid.eq_or_own_event
    · exact absurd (hk'.trans hk.symm) hne
    · exact hown

/-- A step keeps STATE and ERR of a unit, unless it runs a command of that unit, or for ERR writes an illegal word to
its CMD (10_state.md R21, R27). -/
theorem Did.state_err {s : State} {k : Nat} {u u' : PwmUnit} (h : Did s k u u') :
    (u'.state = u.state ∨ ∃ i, s.runs k i) ∧ (u'.err = u.err ∨ ∃ v, s.writesCmd k v) := by
  cases h with
  | same => exact ⟨.inl rfl, .inl rfl⟩
  | clk =>
    obtain ⟨_, _, _, _, _, _, hu⟩ := u.clk_frame
    rw [hu]
    exact ⟨.inl rfl, .inl rfl⟩
  | dispatch =>
    obtain ⟨_, _, _, _, hu⟩ := u.dispatch_frame
    rw [hu]
    exact ⟨.inl rfl, .inl rfl⟩
  | @store a n v off =>
    obtain ⟨_, _, _, _, _, _, hu, -⟩ := writeReg_frame v u (regAt s.params off)
    rw [hu]
    exact ⟨.inl rfl, .inl rfl⟩
  | illegal hw _ => exact ⟨.inl rfl, .inr ⟨_, hw⟩⟩
  | command hruns _ =>
    have ⟨v, hw, _⟩ := hruns
    exact ⟨.inr ⟨_, hruns⟩, .inr ⟨v, hw⟩⟩

/-- Settles O32: of all that a step can do to a unit, only a command writes STATE, and only a CMD write ERR. -/
theorem onlyCommandsChangeStateAndErr : Obligations.OnlyCommandsChangeStateAndErr := by
  unfold Obligations.OnlyCommandsChangeStateAndErr
  intro s t k u u' h hk hk'
  obtain ⟨hstate, herr⟩ := (did_of_step h hk hk').state_err
  exact ⟨hstate.resolve_left, herr.resolve_left⟩

/-! ## What a unit depends on -/

/-- Where an address lies depends on the units' constants alone. -/
theorem locate_congr {us vs : List PwmUnit} (h : us.map PwmUnit.info = vs.map PwmUnit.info) (a : Nat) :
    locate a us = locate a vs := by
  induction us generalizing vs with
  | nil =>
    obtain rfl : vs = [] := by simpa using h.symm
    rfl
  | cons u us ih =>
    cases vs with
    | nil => simp at h
    | cons v vs =>
      simp only [List.map_cons, List.cons.injEq] at h
      obtain ⟨hinfo, hrest⟩ := h
      have howns : u.owns a = v.owns a := by rw [PwmUnit.owns, PwmUnit.owns, hinfo]
      rw [locate, locate, howns, hinfo, ih hrest]

/-- Which accesses are admitted depends on the units' constants alone (20_memory.md R61). -/
theorem admitted_congr_infos {s t : State} (h : s.units.map PwmUnit.info = t.units.map PwmUnit.info) (a n : Nat) :
    admitted s a n = admitted t a n := by
  simp only [admitted, locate_congr h]

/-- Putting the unit at `j` through one function keeps the agreement of two lists at `k`. -/
theorem getElem?_modify_congr {α : Type} {l₁ l₂ : List α} {k : Nat} (h : l₁[k]? = l₂[k]?) (j : Nat) (f : α → α) :
    (l₁.modify j f)[k]? = (l₂.modify j f)[k]? := by
  rw [List.getElem?_modify, List.getElem?_modify, h]

/-- One command on the same selected position takes agreeing units to agreeing units. -/
theorem onSelected_get_congr {s₁ s₂ t₁ t₂ : State} {f : PwmUnit → Outcome PwmUnit Fault Refusal} {k : Nat}
    (hsel : s₁.sel = s₂.sel) (h : s₁.units[k]? = s₂.units[k]?) (h₁ : onSelected s₁ f = .next t₁)
    (h₂ : onSelected s₂ f = .next t₂) : t₁.units[k]? = t₂.units[k]? := by
  obtain ⟨u₁, u₁', hu₁, hf₁, rfl⟩ := onSelected_cases h₁
  obtain ⟨u₂, u₂', hu₂, hf₂, rfl⟩ := onSelected_cases h₂
  by_cases hk : k = s₁.sel
  · subst hk
    rw [hu₁, hsel, hu₂] at h
    obtain rfl := Option.some.inj h
    obtain rfl : u₁' = u₂' := by simpa [hf₁] using hf₂
    rw [State.putUnit_get_self u₁' hu₁, hsel, State.putUnit_get_self u₁' hu₂]
  · rw [State.putUnit_get_ne s₁ u₁' hk, State.putUnit_get_ne s₂ u₂' (hsel ▸ hk), h]

/-- A command word's effect on a unit depends on the parameters and the word alone. -/
theorem executeCommand_get_congr {s₁ s₂ t₁ t₂ : State} {v : Word} {k : Nat} (hp : s₁.params = s₂.params)
    (hsel : s₁.sel = s₂.sel) (h : s₁.units[k]? = s₂.units[k]?) (h₁ : executeCommand v s₁ = .next t₁)
    (h₂ : executeCommand v s₂ = .next t₂) : t₁.units[k]? = t₂.units[k]? := by
  cases hd : decodeWord v with
  | error r =>
    simp only [executeCommand, hd] at h₁ h₂
    exact onSelected_get_congr hsel h h₁ h₂
  | ok i =>
    simp only [executeCommand, hd, exec_eq_onSelected, hp] at h₁ h₂
    exact onSelected_get_congr hsel h h₁ h₂

/-- A read changes no unit (20_memory.md R62). -/
theorem hostRead_units {s t : State} {a n : Nat} (h : hostRead a n s = .next t) : t.units = s.units := by
  unfold hostRead at h
  repeat' split at h
  all_goals cases h
  rfl

/-- One event takes agreeing units of two machines with the same constants to agreeing units (10_state.md R46). -/
theorem perform_get_congr {s₁ s₂ t₁ t₂ : State} {k : Nat} (hp : s₁.params = s₂.params)
    (hinfos : s₁.units.map PwmUnit.info = s₂.units.map PwmUnit.info) (h : s₁.units[k]? = s₂.units[k]?)
    (e : Config.Event) (h₁ : perform e s₁ = .next t₁) (h₂ : perform e s₂ = .next t₂) : t₁.units[k]? = t₂.units[k]? := by
  cases e with
  | clk j =>
    cases h₁; cases h₂
    exact getElem?_modify_congr h j PwmUnit.clk
  | dispatch j =>
    cases h₁; cases h₂
    exact getElem?_modify_congr h j PwmUnit.dispatch
  | host b =>
    cases b with
    | read a n =>
      rw [hostRead_units h₁, hostRead_units h₂, h]
    | write a n v =>
      simp only [perform, access, hostWrite, admitted_congr_infos hinfos] at h₁ h₂
      cases hA : admitted s₂ a n with
      | none => simp [hA] at h₁
      | some target =>
        obtain ⟨j, off⟩ := target
        have hreg : regAt s₂.params off = regAt s₁.params off := by rw [hp]
        simp only [hA, hreg] at h₁ h₂
        by_cases hcmd : regAt s₁.params off = .cmd
        · rw [if_pos hcmd] at h₁ h₂
          exact executeCommand_get_congr (s₁ := { s₁ with sel := j }) (s₂ := { s₂ with sel := j }) hp rfl h h₁ h₂
        · rw [if_neg hcmd] at h₁ h₂
          cases h₁; cases h₂
          exact getElem?_modify_congr h j _

/-- Settles O49: the two steps perform the same event. -/
theorem unitResultDependsOnlyOnTheUnit : Obligations.UnitResultDependsOnlyOnTheUnit := by
  unfold Obligations.UnitResultDependsOnlyOnTheUnit
  intro s₁ s₂ t₁ t₂ k hp hinfos hk he h₁ h₂
  have h₂' : perform (takeEvent s₁).1 (takeEvent s₂).2 = .next t₂ := by
    have he' : (takeEvent s₁).1 = (takeEvent s₂).1 := he
    rw [he']
    exact h₂
  exact perform_get_congr (by simpa using hp) (by simpa using hinfos) (by simpa using hk) _ h₁ h₂'

/-! ## Faults -/

/-- A step that writes a word to CMD of a unit executes it there (20_memory.md R63, 30_encoding.md R84). -/
theorem step_of_writesCmd {s : State} {k : Nat} {v : Word} (h : s.writesCmd k v) :
    step s = executeCommand v { (takeEvent s).2 with sel := k } := by
  obtain ⟨a, n, he, hA⟩ := h
  have he' : (takeEvent s).1 = .host (.write a n v) := he
  simp only [step, he', perform, access, hostWrite, admitted_takeEvent, hA, regAt_zero, if_true]

/-- The unit whose CMD is written exists. -/
theorem State.writesCmd.unit {s : State} {k : Nat} {v : Word} (h : s.writesCmd k v) : ∃ u, s.units[k]? = some u := by
  obtain ⟨a, n, -, hA⟩ := h
  obtain ⟨-, -, -, u, hu, -⟩ := admitted_some hA
  exact ⟨u, hu⟩

/-- The ways in which a step ends that writes a word to CMD: a fault, where the report of the word is one, or a next
state. -/
theorem step_writesCmd_outcome {s : State} {k : Nat} {v : Word} {u : PwmUnit} (h : s.writesCmd k v)
    (hu : s.units[k]? = some u) :
    (∃ f, expectedReport s.params u v = .fault f ∧ step s = .fault f) ∨
      (∃ e, expectedReport s.params u v = .code e) ∧ Good (step s) := by
  have hsel : ({ (takeEvent s).2 with sel := k } : State).units[k]? = some u := by simpa using hu
  have hout := executeCommand_outcome v hsel
  rw [← step_of_writesCmd h] at hout
  simp only [takeEvent_params] at hout
  obtain ⟨f, hreport, hstep⟩ | ⟨e, hreport, hstep⟩ | ⟨u', hreport, -, hstep⟩ := hout
  · exact .inl ⟨f, hreport, hstep⟩
  · exact .inr ⟨⟨e, hreport⟩, _, hstep⟩
  · exact .inr ⟨⟨.ok, hreport⟩, _, hstep⟩

theorem not_good_fault (f : Fault) : ¬ Good (.fault f) := fun ⟨_, h⟩ => nomatch h

theorem good_next (s : State) : Good (.next s) := ⟨s, rfl⟩

/-- A report that may be a code is a fault where the code's condition fails and what follows is one. -/
theorem ite_code_eq_fault_iff {P : Prop} [Decidable P] {e : ErrCode} {r : Report} {f : Fault} :
    (if P then .code e else r) = .fault f ↔ ¬ P ∧ r = .fault f := by
  by_cases hP : P <;> simp [hP]

/-- A command's report is a fault exactly for a lifecycle command with HCTX = 1, and for a second INIT (60_exceptions.md
R183, R184). -/
theorem commandReport_fault_iff {p : Params} {u : PwmUnit} {i : Instr} :
    (∃ f, commandReport p u i = .fault f) ↔
      (i = .init true ∨ i = .start true ∨ i = .stop true) ∨ i = .init false ∧ u.state ≠ .uninitialized := by
  cases i with
  | init hctx => cases hctx <;> simp [commandReport, ite_code_eq_fault_iff]
  | start hctx => cases hctx <;> simp [commandReport, ite_code_eq_fault_iff]
  | stop hctx => cases hctx <;> simp [commandReport, ite_code_eq_fault_iff]
  | chper hctx => simp [commandReport, ite_code_eq_fault_iff]
  | ench hctx ch => simp [commandReport, ite_code_eq_fault_iff]
  | disch hctx ch => simp [commandReport, ite_code_eq_fault_iff]

/-- A step that runs a command is bad exactly where the command's report is a fault. -/
theorem State.runs.not_good_iff {s : State} {k : Nat} {i : Instr} {u : PwmUnit} (h : s.runs k i)
    (hu : s.units[k]? = some u) : ¬ Good (step s) ↔ ∃ f, commandReport s.params u i = .fault f := by
  obtain ⟨v, hw, hd⟩ := h
  rw [← expectedReport_of_decodeWord_ok hd]
  obtain ⟨f, hreport, hstep⟩ | ⟨⟨e, hreport⟩, hgood⟩ := step_writesCmd_outcome hw hu
  · simp [hstep, hreport, not_good_fault]
  · simp [hgood, hreport]

/-- A step that writes an illegal word to CMD is good (30_encoding.md R85). -/
theorem State.writesCmd.good_of_error {s : State} {k : Nat} {v : Word} (h : s.writesCmd k v) {r : Reject}
    (hd : decodeWord v = .error r) : Good (step s) := by
  obtain ⟨u, hu⟩ := h.unit
  have hillegal : expectedReport s.params u v = .code .illegal := if_pos (illegalWord_of_decodeWord_error hd)
  obtain ⟨f, hreport, -⟩ | ⟨-, hgood⟩ := step_writesCmd_outcome h hu
  · simp [hillegal] at hreport
  · exact hgood

/-- A step of an access that is not admitted is a BusError (20_memory.md R61). -/
theorem step_of_not_admitted {s : State} {a n : Nat}
    (he : s.nextEvent = .host (.read a n) ∨ ∃ v, s.nextEvent = .host (.write a n v)) (hA : admitted s a n = none) :
    step s = .fault (.busError a n) := by
  have hA' : admitted (takeEvent s).2 a n = none := (admitted_takeEvent s a n).trans hA
  obtain he | ⟨v, he⟩ := he
  · exact (congrArg (perform · (takeEvent s).2) he).trans (hostRead_of_not_admitted hA')
  · exact (congrArg (perform · (takeEvent s).2) he).trans (hostWrite_of_not_admitted hA' v)

/-- Every step is good, or an access that is not admitted, or writes a word to CMD. -/
theorem step_trichotomy (s : State) :
    Good (step s) ∨
    (∃ a n, (s.nextEvent = .host (.read a n) ∨ ∃ v, s.nextEvent = .host (.write a n v)) ∧ admitted s a n = none) ∨
    ∃ k v, s.writesCmd k v := by
  have hc := step_cases s
  have hne : s.nextEvent = (takeEvent s).1 := rfl
  generalize step s = o at hc
  generalize (takeEvent s).1 = e at hc hne
  cases hc with
  | badRead hA => exact .inr (.inl ⟨_, _, .inl hne, by simpa using hA⟩)
  | badWrite hA => exact .inr (.inl ⟨_, _, .inr ⟨_, hne⟩, by simpa using hA⟩)
  | read | store | clk | dispatch => exact .inl (good_next _)
  | command hA hr =>
    obtain rfl := regAt_eq_cmd hr
    exact .inr (.inr ⟨_, _, _, _, hne, by simpa using hA⟩)

/-- Settles O51: apart from accesses that are not admitted, only a word written to CMD can fault, and then by the report
of its command. -/
theorem stepFaultsExactlyAsTheRulesSay : Obligations.StepFaultsExactlyAsTheRulesSay := by
  unfold Obligations.StepFaultsExactlyAsTheRulesSay
  intro s
  constructor
  · intro hbad
    obtain hgood | haccess | ⟨k, v, hw⟩ := step_trichotomy s
    · exact absurd hgood hbad
    · exact .inl haccess
    · obtain ⟨u, hu⟩ := hw.unit
      cases hd : decodeWord v with
      | error r => exact absurd (hw.good_of_error hd) hbad
      | ok i =>
        have hruns : s.runs k i := ⟨v, hw, hd⟩
        obtain (rfl | rfl | rfl) | ⟨rfl, hs⟩ := commandReport_fault_iff.mp ((hruns.not_good_iff hu).mp hbad)
        · exact .inr (.inl ⟨k, .inl hruns⟩)
        · exact .inr (.inl ⟨k, .inr (.inl hruns)⟩)
        · exact .inr (.inl ⟨k, .inr (.inr hruns)⟩)
        · exact .inr (.inr ⟨k, u, hruns, hu, hs⟩)
  · have hbad {k : Nat} {i : Instr} (hruns : s.runs k i) (hi : i = .init true ∨ i = .start true ∨ i = .stop true) :
        ¬ Good (step s) := by
      have ⟨v, hw, _⟩ := hruns
      obtain ⟨u, hu⟩ := hw.unit
      exact (hruns.not_good_iff hu).mpr (commandReport_fault_iff.mpr (.inl hi))
    rintro (⟨a, n, he, hA⟩ | ⟨k, hruns | hruns | hruns⟩ | ⟨k, u, hruns, hu, hs⟩)
    · exact step_of_not_admitted he hA ▸ not_good_fault _
    · exact hbad hruns (.inl rfl)
    · exact hbad hruns (.inr (.inl rfl))
    · exact hbad hruns (.inr (.inr rfl))
    · exact (hruns.not_good_iff hu).mpr (commandReport_fault_iff.mpr (.inr ⟨rfl, hs⟩))

/-- Settles O52: a bad step is a fault, by what each kind of event answers. -/
theorem noStepIsRefused : Obligations.NoStepIsRefused := by
  unfold Obligations.NoStepIsRefused
  intro s r hrefused
  obtain ⟨t, hgood⟩ | ⟨a, n, he, hA⟩ | ⟨k, v, hw⟩ := step_trichotomy s
  · simp [hgood] at hrefused
  · simp [step_of_not_admitted he hA] at hrefused
  · obtain ⟨u, hu⟩ := hw.unit
    obtain ⟨f, -, hfault⟩ | ⟨-, t, hnext⟩ := step_writesCmd_outcome hw hu
    · simp [hfault] at hrefused
    · simp [hnext] at hrefused

end Sys2Proof.Machine
end

section
/-! PROOFS. The statements of 43_counter_output.md about disabled agents, the prescaler, the duty and glitch-free
changes. First what keeps the waveform registers of a unit, then runs of input-clock cycles, and pins over one
period. -/

namespace Sys2Proof.Machine

open Config (Params)

/-! ## Agents that are not enabled -/

/-- Settles O36: a placed event of a disabled agent puts its unit back as it was. -/
theorem eventOfADisabledAgentChangesNothing : Obligations.EventOfADisabledAgentChangesNothing := by
  unfold Obligations.EventOfADisabledAgentChangesNothing
  intro s k u rest hk
  constructor
  · intro he hoff
    have hdisabled : u.clkEnabled = false := by
      rw [PwmUnit.clkEnabled, Bool.and_eq_false_iff]
      exact hoff
    have hclk : u.clk = u := if_neg (by simp [hdisabled])
    rw [step_placed_clk he hk, hclk, set_eq_self_of_get hk]
  · intro he hoff
    have hdisabled : u.dispatchEnabled = false := by
      rw [PwmUnit.dispatchEnabled, Bool.and_eq_false_iff, PwmUnit.flagPending_eq_false_iff]
      exact hoff
    have hdispatch : u.dispatch = u := if_neg (by simp [hdisabled])
    rw [step_placed_dispatch he hk, hdispatch, set_eq_self_of_get hk]

/-! ## The waveform registers in a step -/

/-- Changing one channel but for its active compare and polarity keeps the waveform. -/
theorem PwmUnit.modifyChannel_waveform (u : PwmUnit) (i : Nat) {f : Channel → Channel}
    (hf : ∀ c, ((f c).ccr, (f c).oe, (f c).pol) = (c.ccr, c.oe, c.pol)) : (u.modifyChannel i f).waveform = u.waveform :=
  congrArg (fun chans => (u.arr, chans)) (map_modify_of_view_eq hf)

/-- A tick that does not wrap keeps the waveform (43_counter_output.md R162). -/
theorem PwmUnit.tick_waveform {u : PwmUnit} (h : u.cnt ≠ u.arr) : u.tick.waveform = u.waveform := by
  rw [(tickCountsOrWraps u).left h]
  simp [PwmUnit.waveform]

theorem PwmUnit.clearFlags_waveform (u : PwmUnit) : u.clearFlags.waveform = u.waveform := by
  simp [PwmUnit.waveform, PwmUnit.clearFlags]

theorem writeReg_waveform (v : Word) (u : PwmUnit) (r : RegName) : (writeReg v u r).waveform = u.waveform := by
  cases r
  case chCfg i => exact u.modifyChannel_waveform i fun _ => rfl
  all_goals rfl

/-- A command other than START and STOP keeps the waveform: CHPER, ENCH and DISCH write shadows only
(42_channel_ops.md). -/
theorem unitCommand_waveform {p : Params} {i : Instr} {u u' : PwmUnit} (h : unitCommand p i u = .next u') :
    u'.waveform = u.waveform ∨ ∃ hctx, i = .start hctx ∨ i = .stop hctx := by
  cases i with
  | init hctx => obtain ⟨-, -, rfl⟩ := initUnit_cases h; exact .inl rfl
  | start hctx => exact .inr ⟨hctx, .inl rfl⟩
  | stop hctx => exact .inr ⟨hctx, .inr rfl⟩
  | chper hctx => obtain ⟨-, rfl⟩ | ⟨-, -, rfl⟩ | ⟨-, t, -, rfl⟩ := chperUnit_cases h <;> exact .inl rfl
  | ench hctx ch =>
    obtain ⟨-, rfl⟩ | ⟨-, -, rfl⟩ | ⟨-, -, rfl⟩ := enchUnit_cases h
    · exact .inl rfl
    · exact .inl rfl
    · exact .inl (u.modifyChannel_waveform ch fun _ => rfl)
  | disch hctx ch =>
    obtain ⟨-, rfl⟩ | ⟨-, -, rfl⟩ | ⟨-, -, rfl⟩ := dischUnit_cases h
    · exact .inl rfl
    · exact .inl rfl
    · exact .inl (u.modifyChannel_waveform ch fun _ => rfl)

/-- A step keeps the waveform of a unit, unless it is that unit's wrap, START or STOP (43_counter_output.md R168). -/
theorem Did.waveform {s : State} {k : Nat} {u u' : PwmUnit} (h : Did s k u u') :
    u'.waveform = u.waveform ∨ (s.nextEvent = .clk k ∧ u.wrapsNow) ∨ s.restarts k := by
  cases h with
  | same => exact .inl rfl
  | clk he =>
    obtain ⟨-, hu⟩ | ⟨-, -, hu⟩ | ⟨hen, hpsc, hu⟩ := u.clk_cases
    · exact .inl (by rw [hu])
    · exact .inl (by rw [hu]; rfl)
    · by_cases hwrap : u.cnt = u.arr
      · exact .inr (.inl ⟨he, ⟨hen, hpsc⟩, hwrap⟩)
      · rw [hu]
        exact .inl (PwmUnit.tick_waveform (u := { u with pscCnt := 0 }) hwrap)
  | dispatch =>
    obtain ⟨-, hu⟩ | ⟨-, hu⟩ := u.dispatch_cases <;> rw [hu]
    · exact .inl rfl
    · exact .inl u.clearFlags_waveform
  | store => exact .inl (writeReg_waveform _ u _)
  | illegal => exact .inl rfl
  | command hruns hc =>
    obtain hkept | ⟨hctx, rfl | rfl⟩ := unitCommand_waveform hc
    · exact .inl hkept
    · exact .inr (.inr ⟨hctx, .inl hruns⟩)
    · exact .inr (.inr ⟨hctx, .inr hruns⟩)

/-- Settles O43: of all that a step can do to a unit, only its wrap, START and STOP change the waveform. -/
theorem waveformChangesOnlyAtAWrap : Obligations.WaveformChangesOnlyAtAWrap := by
  unfold Obligations.WaveformChangesOnlyAtAWrap
  exact fun s t k u u' h hk hk' => (did_of_step h hk hk').waveform.resolve_left

/-! ## The prescaler over a run -/

/-- With `n` cycles left below PSC, `n + 1` cycles end in the tick, the first `n` of them counting the prescaler
(43_counter_output.md R161). -/
theorem run_clk_to_tick {s : State} {k : Nat} {rest : List Config.Event} (n : Nat) {u : PwmUnit}
    (hk : s.units[k]? = some u) (hen : u.clkEnabled = true) (hleft : u.pscCnt + n = u.psc)
    (he : s.agenda = List.replicate (n + 1) (.clk k) ++ rest) :
    core.run (n + 1) s =
      .next { s with agenda := rest, units := s.units.set k { u with pscCnt := 0 }.tick } := by
  induction n generalizing s u with
  | zero =>
    have htick : u.clk = { u with pscCnt := 0 }.tick := by simp [PwmUnit.clk, hen, ← hleft]
    rw [← htick]
    exact run_succ_of_next (M := core) (step_placed_clk he hk) 0
  | succ n ih =>
    have hcount : u.clk = { u with pscCnt := u.pscCnt + 1 } := by
      rw [PwmUnit.clk, if_pos hen, if_pos (by omega)]
    have hstep := step_placed_clk he hk
    rw [hcount] at hstep
    obtain ⟨hkt, -⟩ := List.getElem?_eq_some_iff.mp hk
    have hk' := List.getElem?_set_self (a := { u with pscCnt := u.pscCnt + 1 }) hkt
    have hleft' : u.pscCnt + 1 + n = u.psc := by omega
    refine (run_succ_of_next (M := core) hstep (n + 1)).trans ?_
    exact (ih (u := { u with pscCnt := u.pscCnt + 1 }) hk' hen hleft' rfl).trans (by simp only [List.set_set])

/-- Settles O42: from PSC_CNT = 0 there are PSC cycles to count before the tick. -/
theorem prescalerMakesOneTickOfPscPlusOneCycles : Obligations.PrescalerMakesOneTickOfPscPlusOneCycles := by
  unfold Obligations.PrescalerMakesOneTickOfPscPlusOneCycles
  intro s k u rest hk hclken hcen hzero he
  have hen : u.clkEnabled = true := by simp [PwmUnit.clkEnabled, hclken, hcen]
  have hsame : { u with pscCnt := 0 } = u := by rw [← hzero]
  have hrun := run_clk_to_tick u.psc hk hen (by omega) he
  rwa [hsame] at hrun

/-! ## The duty over one period -/

/-- Of the numbers below `n`, `min c n` are below `c`. -/
theorem countP_range_lt (c n : Nat) : (List.range n).countP (fun m => decide (m < c)) = min c n := by
  induction n with
  | zero => simp
  | succ n ih =>
    rw [List.range_succ, List.countP_append, ih]
    by_cases h : n < c <;> simp [h] <;> omega

/-- Of the numbers below `n`, the others are not. -/
theorem countP_range_not_lt (c n : Nat) : (List.range n).countP (fun m => !decide (m < c)) = n - min c n := by
  have hsplit := List.length_eq_countP_add_countP (fun m => decide (m < c)) (l := List.range n)
  rw [List.length_range, countP_range_lt] at hsplit
  have hnot : (List.range n).countP (fun m => !decide (m < c)) =
      (List.range n).countP (fun m => decide ¬decide (m < c) = true) := List.countP_congr (by simp)
  omega

/-- A driven pin is at the active level of its channel exactly while the channel is active (43_counter_output.md R165,
R166). -/
theorem PwmUnit.pin_eq_level_iff {u : PwmUnit} {i : Nat} {c : Channel} (hc : u.chans[i]? = some c)
    (hclken : u.clken = true) (hoe : c.oe = true) :
    (u.pin i = (if c.pol then .low else .high) ↔ u.cnt < c.ccr) ∧
      (u.pin i = (if c.pol then .high else .low) ↔ ¬ u.cnt < c.ccr) := by
  rw [PwmUnit.pin_driven hc hclken hoe]
  cases c.pol <;> by_cases h : u.cnt < c.ccr <;> simp [h]

/-- How long a driven pin is at either level over one period (43_counter_output.md R167). -/
theorem PwmUnit.ticksAt_levels {u : PwmUnit} {i : Nat} {c : Channel} (hc : u.chans[i]? = some c)
    (hclken : u.clken = true) (hoe : c.oe = true) :
    u.ticksAt i (if c.pol then .low else .high) = min c.ccr (u.arr + 1) ∧
      u.ticksAt i (if c.pol then .high else .low) = u.arr + 1 - min c.ccr (u.arr + 1) := by
  have hlevel (n : Nat) := PwmUnit.pin_eq_level_iff (u := { u with cnt := n }) hc hclken hoe
  constructor
  · rw [← countP_range_lt]
    exact List.countP_congr fun n _ => by simpa using (hlevel n).left
  · rw [← countP_range_not_lt]
    exact List.countP_congr fun n _ => by simpa using (hlevel n).right

/-- Settles O41: a channel is active below its compare value, and its pin follows. -/
theorem dutyIsTheCompareValue : Obligations.DutyIsTheCompareValue := by
  unfold Obligations.DutyIsTheCompareValue
  intro u i c hc
  refine ⟨countP_range_lt c.ccr (u.arr + 1), ?activeHigh, ?activeLow⟩
  all_goals
    intro hclken hoe hpol
    simpa [hpol] using PwmUnit.ticksAt_levels hc hclken hoe

end Sys2Proof.Machine
end

section
/-! PROOFS. The statements of 30_encoding.md and 20_memory.md section 4 about how a command comes to run: by a write to
CMD, placed alone or after the write of its operand. -/

namespace Sys2Proof.Machine

/-- Executing a word that decodes is executing its command (30_encoding.md R84). -/
theorem executeCommand_of_decodeWord_ok {v : Word} {i : Instr} (h : decodeWord v = .ok i) (s : State) :
    executeCommand v s = exec i s := by
  simp only [executeCommand, h]

/-- Settles O7: the write executes its word on its unit, and the word decodes. -/
theorem stepRunsTheDecodedCommand : Obligations.StepRunsTheDecodedCommand := by
  unfold Obligations.StepRunsTheDecodedCommand
  intro s k a v i rest he hA hd
  exact (step_placed_cmd_write he hA).trans (executeCommand_of_decodeWord_ok hd _)

/-- A command word placed at CMD of a unit runs there, with the rest of the agenda left to place. -/
theorem step_placed_command {s : State} (hI : s.Inv) {k : Nat} {u : PwmUnit} {v : Word} {i : Instr}
    {rest : List Config.Event} (hk : s.units[k]? = some u) (hd : decodeWord v = .ok i)
    (he : s.agenda = .host (.write u.info.base 4 v) :: rest) : step s = exec i { s with agenda := rest, sel := k } :=
  stepRunsTheDecodedCommand s k u.info.base v i rest he (admitted_of_inv hI hk (off := 0) (by decide) (by decide)) hd

/-- The invariant says nothing of the agenda. -/
theorem State.Inv.withAgenda {s : State} (h : s.Inv) (agenda : List Config.Event) :
    State.Inv { s with agenda := agenda } :=
  { h with }

/-- Settles O8: the word is placed at CMD of the selected unit. -/
theorem placedCommandWordRunsOnTheSelectedUnit : Obligations.PlacedCommandWordRunsOnTheSelectedUnit := by
  unfold Obligations.PlacedCommandWordRunsOnTheSelectedUnit
  intro s u v i hI hu hd
  have hword : BitVec.ofNat 32 (v.toNat % 2 ^ 32) = v := by
    rw [Nat.mod_eq_of_lt v.isLt, BitVec.ofNat_toNat, BitVec.setWidth_eq]
  have hplaced : s.withFetchWord 32 v.toNat = { s with agenda := .host (.write u.info.base 4 v) :: s.agenda } := by
    simp only [State.withFetchWord, State.placeCommand, hu, hword]
  rw [hplaced]
  exact step_placed_command (hI.withAgenda _) hu hd rfl

/-- A run of one step. -/
theorem run_one (M : Host.Core) (s : M.State) : M.run 1 s = M.step s := by
  rw [Host.Core.run]
  cases M.step s <;> rfl

/-- A placed write does what `WritesAs` says of it. -/
theorem step_of_writesAs {s : State} {k off : Nat} {v : Word} {f : PwmUnit → PwmUnit} (h : s.WritesAs k off v f)
    {u : PwmUnit} {rest : List Config.Event} (hk : s.units[k]? = some u)
    (he : s.agenda = writeEvent u.info.base off v :: rest) :
    step s = .next { s with agenda := rest, units := s.units.set k (f u) } := by
  have hstep := h u rest hk
  rwa [← writeEvent, ← he] at hstep

/-- A write of ARG and then a command's word run, undisturbed, as that command with the word in ARG (30_encoding.md
R90). -/
theorem run_arg_then_command {s : State} {u : PwmUnit} {i : Instr} {w : Word} {rest : List Config.Event} (hI : s.Inv)
    (hu : s.units[s.sel]? = some u) (hi : i.wellFormed = true)
    (he : s.agenda = writeEvent u.info.base 0x004 w :: writeEvent u.info.base 0x000 (encode i) :: rest) :
    core.run 2 s = exec i ({ s with agenda := rest }.putUnit { u with arg := w }) := by
  have hwrites : s.WritesAs s.sel 0x004 w fun u => { u with arg := w } :=
    writesAs_writeReg hI s.sel (by decide) (by decide) (by decide) w
  have harg := step_of_writesAs hwrites hu he
  have hI' := hI.step harg
  obtain ⟨hlt, -⟩ := List.getElem?_eq_some_iff.mp hu
  have hu' := List.getElem?_set_self (a := { u with arg := w }) hlt
  have hcmd := step_placed_command hI' hu' (decodeWord_encode hi) rfl
  exact ((run_succ_of_next (M := core) harg 1).trans (run_one core _)).trans hcmd

/-- Settles O56: the two lines are of that form. -/
theorem operandLinesRunAsArgThenCommand : Obligations.OperandLinesRunAsArgThenCommand := by
  unfold Obligations.OperandLinesRunAsArgThenCommand
  intro s u h c w rest hI hu hc
  exact ⟨run_arg_then_command hI hu rfl, run_arg_then_command hI hu (decide_eq_true hc)⟩

end Sys2Proof.Machine
end
